-- ==== Sys2Proof/Config.lean ====
section
/-! DEFINITION. The numbers an implementation fixes (00_scope.md rules R9, R10; DESIGN CHOICE, notes/assumptions/17.md). The types
of Word.lean, the state and the commands take them from here, so that a corrected literal of the source changes one place (R19). -/

namespace Sys2Proof

/-! ## What the document fixes (R9) -/

/-- `BLK`: edge of a block in pixels. -/
abbrev Config.blk : Nat := 8
/-- `QN`: number of table entries, and of coefficient positions of a block (R133). -/
abbrev Config.qn : Nat := 64
/-- `QW`: width of a table entry in bits. -/
abbrev Config.qw : Nat := 16
/-- `QMAX`: upper clamp bound of a table entry. -/
abbrev Config.qmax : Nat := 65535
/-- `LANES_MIN`: least legal thread count. -/
abbrev Config.lanesMin : Nat := 1
/-- `LANES_MAX`: greatest legal thread count. -/
abbrev Config.lanesMax : Nat := 32
/-- `LINE_ALIGN`: line bytes are the width rounded up to a multiple of this. -/
abbrev Config.lineAlign : Nat := 4

/-! ## What the spec fixes by decision (R10), and what follows from it -/

/-- `2 ^ ADDR_W`: the number of bytes of the memory space (R44). -/
abbrev Config.memBytes : Nat := 4294967296
/-- `QVAL_W`: width of one table source value in bits. -/
abbrev Config.qvalW : Nat := 32
/-- `LEVEL_W`: width of one quantized level in bits. -/
abbrev Config.levelW : Nat := 16
/-- `COEF_W`: width of one dequantized coefficient in bits. -/
abbrev Config.coefW : Nat := 32
/-- `PIX_BYTES`: bytes per output sample; C13 of 90_conflicts.md: fixed to 1, not `OPEN`. -/
abbrev Config.pixBytes : Nat := 1
/-- `SEQ_MAXBYTES`: greatest width of the sequence field in bytes. -/
abbrev Config.seqMaxBytes : Nat := 8
/-- Width of LANES in bits (R25), enough for `LANES_MAX`. -/
abbrev Config.lanesW : Nat := 6
/-- Bytes of one table source value, `QVAL_W` / 8 (R62). -/
abbrev Config.sourceValueBytes : Nat := 4
/-- Bytes of one table read-back value (R63). -/
abbrev Config.readBackBytes : Nat := 2
/-- Bytes of the register block (R43). -/
abbrev Config.portBytes : Nat := 256

end Sys2Proof
end

