-- ==== Sys2Proof/Word.lean ====
section
/-! DEFINITION. The bit-vector types of the BDQ8 engine, by the names spec/00_scope.md rules R9, R10 and R13 give them. -/

namespace Sys2Proof

/-- One byte of the memory space `M` (R44). -/
abbrev Byte := BitVec 8

/-- A 32-bit register value or command word (`OPW` = 32, R10). Its `toInt` is `as_s32`, its `toNat` is `as_u32` (R13). -/
abbrev Word := BitVec 32

/-- One entry of the quantization table, `u16` (`QW` = 16, R9). -/
abbrev Entry := BitVec Config.qw

/-- A quantization table: `QN` = 64 entries (R9, R22). -/
abbrev Table := Vector Entry Config.qn

/-- A coefficient or sample position of a block, 0 to `QN` - 1 (R131, R133, R138). -/
abbrev Position := Fin Config.qn

/-- One quantized level, `s16` (`LEVEL_W` = 16, R10); its value is `toInt`. -/
abbrev Level := BitVec Config.levelW

/-- One dequantized coefficient, `s32` (`COEF_W` = 32, R10); its value is `toInt`. -/
abbrev Coef := BitVec Config.coefW

/-- One output sample, `u8` because `PIX_BYTES` = 1 (R10, R11). -/
abbrev Pixel := BitVec 8

end Sys2Proof
end

