-- ==== Sys2Proof/Profile.lean ====
section
/-! DEFINITION. The `OPEN` parameters the spec leaves to the sensor (00_scope.md R11), and the free values of the model. -/

namespace Sys2Proof

/-- The raster layout, block after block in row-major order, gives distinct blocks of a grid disjoint byte ranges. It serves
only to show that `Profile` has a member. -/
theorem Config.raster_disjoint (size nbx c r c' r' : Nat) (hc : c < nbx) (hc' : c' < nbx) (hne : ¬(c = c' ∧ r = r')) :
    (r * nbx + c) * size + size ≤ (r' * nbx + c') * size ∨ (r' * nbx + c') * size + size ≤ (r * nbx + c) * size := by
  have key : ∀ {c r c' r' : Nat}, c < nbx → r < r' → r * nbx + c + 1 ≤ r' * nbx + c' := by
    intro c r c' r' hc hr
    have : (r + 1) * nbx ≤ r' * nbx := Nat.mul_le_mul_right _ hr
    rw [Nat.add_mul] at this
    omega
  have lift : ∀ {a b : Nat}, a + 1 ≤ b → a * size + size ≤ b * size := by
    intro a b h
    have := Nat.mul_le_mul_right size h
    rwa [Nat.add_mul, Nat.one_mul] at this
  rcases Nat.lt_trichotomy r r' with h | h | h
  · exact .inl (lift (key hc h))
  · subst h
    rcases Nat.lt_trichotomy c c' with g | g | g
    · exact .inl (lift (by omega))
    · exact absurd ⟨g, rfl⟩ hne
    · exact .inr (lift (by omega))
  · exact .inr (lift (key hc' h))

/-- The `OPEN` parameters of R11, each with the properties R11 requires of it and no other. The values written here are there
only so that Lean knows the type has a member; nothing can be proved from them about `Config.sensor`. -/
structure Profile where
  /-- `DEFAULT_QTAB`: the contents of `QROM` (R21). -/
  defaultQtab : Position → Entry := fun _ => 0
  /-- `LANES_RESET`: the thread count after construction (R175). -/
  lanesReset : Nat := Config.lanesMin
  lanesReset_range : Config.lanesMin ≤ lanesReset ∧ lanesReset ≤ Config.lanesMax := by decide
  /-- `BLOCK_BYTES`: bytes of one compressed block (R131). -/
  blockBytes : Nat := 1
  blockBytes_pos : 1 ≤ blockBytes := by decide
  /-- `unpack`: the 64 levels of a block's bytes (R131). -/
  unpack : (Fin blockBytes → Byte) → Position → Level := fun _ _ => 0
  /-- `itrans`: the inverse block transform with its rounding and clamping (R136). -/
  itrans : (Position → Coef) → Position → Pixel := fun _ _ => 0
  /-- `dcmap`: level 0 and table entry 0 to a DC sample (R140). -/
  dcmap : Level → Entry → Pixel := fun _ _ => 0
  /-- `blk_off bx by NBX NBY`: where block `(bx, by)` of the grid starts in the payload (R163). -/
  blkOff : Nat → Nat → Nat → Nat → Nat := fun c r nbx _ => (r * nbx + c) * blockBytes
  blkOff_disjoint : ∀ nbx nby c r c' r', c < nbx → r < nby → c' < nbx → r' < nby → ¬(c = c' ∧ r = r') →
    blkOff c r nbx nby + blockBytes ≤ blkOff c' r' nbx nby ∨ blkOff c' r' nbx nby + blockBytes ≤ blkOff c r nbx nby := by
      intro nbx _ c r c' r' hc _ hc' _ hne
      exact Config.raster_disjoint _ nbx c r c' r' hc hc' hne
  /-- `seq_offset W H`: where the sequence field starts in the payload, on every pair of `s32` values (R210). -/
  seqOffset : Word → Word → Nat := fun _ _ => 0
  /-- `SEQ_BYTES`: width of the sequence field in bytes (R210). -/
  seqBytes : Nat := 1
  seqBytes_range : 1 ≤ seqBytes ∧ seqBytes ≤ Config.seqMaxBytes := by decide
  /-- `ENGINE_BASE`: address of the register block in the register space (R43, R44). -/
  engineBase : Nat := 0
  engineBase_aligned : engineBase % Config.portBytes = 0 := by decide
deriving Inhabited

/-- The sensor's own values of the `OPEN` parameters. No body: a claim about it holds for every profile
(R11; DESIGN CHOICE, notes/assumptions/1.md). -/
opaque Config.sensor : Profile

/-- FREE VALUE. `QTAB` after the `k`-th reset (R50, R250, U13; DESIGN CHOICE, notes/assumptions/2.md). -/
opaque Config.resetTable : Nat → Position → Entry

/-- A legal thread count. The default is there only so that Lean knows the type has a member. -/
structure ThreadCount where
  value : Nat := Config.lanesMin
  range : Config.lanesMin ≤ value ∧ value ≤ Config.lanesMax := by decide
deriving Inhabited

/-- FREE VALUE. `LANES` after the `k`-th reset: some legal thread count (R50, U13; DESIGN CHOICE, notes/assumptions/2.md). -/
opaque Config.resetLanes : Nat → ThreadCount

/-- FREE VALUE. A byte of memory at an address at a moment when the spec leaves it unspecified: a host read of the destination
window while `BUSY` = 1 (R263, U17), and the output range of a command that a reset abandons (R251, U14;
DESIGN CHOICE, notes/assumptions/3.md). -/
opaque Config.freeByte : Nat → Nat → Byte

end Sys2Proof
end

