-- ==== Sys2Proof/Machine/State.lean ====
section
/-! DEFINITION. The state of the machine as plain data: the engine's architectural state (10_state.md R20), the hidden state of
a command in flight (R47), and the host's side of the register port and of memory (30_encoding.md R103). -/

namespace Sys2Proof.Machine

/-- The facade state `CFG` (R26). -/
inductive Cfg where
  | unconfigured
  | ready
deriving DecidableEq, Repr

/-- The outcome codes of `STATUS.ERR` (R37); the values 6 to 15 are never produced, so they have no constructor. -/
inductive Err where
  | ok
  | configError
  | rangeError
  | stateError
  | accessFault
  | illegalCommand
deriving DecidableEq, Repr

/-- The ten operand registers (R27). A command samples them as one record (R29). -/
structure OperandRegs where
  frameW : Word
  frameH : Word
  srcBase : Word
  srcLen : Word
  dstBase : Word
  dstLen : Word
  a0 : Word
  a1 : Word
  a2 : Word
  a3 : Word
deriving DecidableEq, Repr

/-- The memory space `M` (R44): address and byte of every byte that is not zero, addresses strictly rising. -/
abbrev Memory := List Host.Cell

/-- A block of the block grid: column `bx` and row `by` (R158). -/
structure Block where
  col : Nat
  row : Nat
deriving DecidableEq, Repr

/-- A pixel region `(x, y, width, height)` (R30, R179), in exact integers (R13). -/
structure Region where
  x : Int
  y : Int
  width : Int
  height : Int
deriving DecidableEq, Repr

/-- A DC request `(bx, by, blockCountX, blockCountY)` in block units (R30, R201). -/
structure DcRegion where
  col : Int
  row : Int
  cols : Int
  rows : Int
deriving DecidableEq, Repr

/-- The block work of a decode command: DECF and DECR write the pixels of a region, DECDC the DC samples of a block region. -/
inductive Job where
  | pixels (r : Region)
  | dc (r : DcRegion)
deriving DecidableEq, Repr

/-- What is left of a command in flight (R47): its checks; the 64 clamped values not yet committed (INITQ constructs, QSET only
replaces the table); the blocks not yet performed (the set `pending` of R187). -/
inductive Work where
  | checks
  | commit (constructs : Bool) (t : Table)
  | blocks (job : Job) (pending : List Block)
deriving DecidableEq, Repr

/-- A command between acceptance and completion: its word, the operands it sampled (R29), the work left (R47). -/
structure InFlight where
  word : Word
  ops : OperandRegs
  work : Work
deriving DecidableEq, Repr

/-- What happens next at the engine's boundary or inside it. The host's actions are those of R103, with the access width of a
register-port access written out (R72); `issue`, `advance` and `lane` are the steps of the lane level (R187; DEDUCED,
notes/assumptions/6.md). -/
inductive Event where
  /-- a host write of `bytes` bytes at a register offset; written to CMD it is the action `CMD` of R103: the command runs to its
  completion in this one transition (the atomic level, R184) -/
  | write (bytes offset : Nat) (v : Word)
  /-- a host read of `bytes` bytes at a register offset (the action `RD`) -/
  | read (bytes offset : Nat)
  /-- a host store of bytes to `M` (the action `MEM`) -/
  | store (addr : Word) (data : List Byte)
  /-- a host load of `n` bytes from `M` (the action `DUMP`) -/
  | dump (addr : Word) (n : Nat)
  /-- the reset event (R250) -/
  | reset
  /-- a host write of a word to CMD that does not wait: the engine accepts the command and BUSY becomes 1 (R90) -/
  | issue (w : Word)
  /-- one step of the engine sequencer on the command in flight: its checks, the commit of a table, or the completion -/
  | advance
  /-- a block step: lane `l` takes block `b` (R187) -/
  | lane (l : Nat) (b : Block)
deriving DecidableEq, Repr

/-- What the host learnt from a `read` or a `dump` (R103). -/
inductive Observation where
  | register (offset : Nat) (v : Word)
  | memory (addr : Word) (data : List Byte)
deriving DecidableEq, Repr

/-- Why the machine stops with a fault. The engine itself never stops (R271): its own errors are completions (R220). -/
inductive Fault where
  /-- raised by the host's `store` and `dump` at an address outside the 2^32 bytes of `M` (R44, R77; DESIGN CHOICE,
  notes/assumptions/12.md); safe -/
  | noSuchAddress
deriving DecidableEq, Repr

/-- Why a step has no meaning: the host has broken a rule of the spec (DEDUCED, notes/assumptions/8.md). -/
inductive Refusal where
  /-- raised by an arm of `exec` that has no meaning yet; safe -/
  | notModelled (mnemonic : String)
  /-- raised by a host write to CMD or to an operand register while BUSY = 1 (R261, U16); safe -/
  | busyRegisterWrite
  /-- raised by a host store into the source or destination window of the command in flight while BUSY = 1 (R264, U17); safe -/
  | busyWindowWrite
  /-- raised by a host read of RESULT or RESULT_HI while the command in flight is LGET or SEQX (R243, R263); safe -/
  | earlyResultRead
  /-- raised by a register-port access that is not 32 bits wide and aligned to 4 bytes, or lies outside the register block
  (R72, U18); safe -/
  | badPortAccess
  /-- raised by an `advance` or `lane` event that is no step of R187: nothing in flight, a block that is not pending, a lane
  number not below LANES, or a completion with blocks pending; safe -/
  | noSuchEngineStep
deriving DecidableEq, Repr

/-- The state of the machine. `STATUS` is not a field of its own: its five fields BUSY, DONE, READY, FAULT and ERR are `busy`,
`done`, `cfg` (R39), `fault` and `err`, and Machine/Flags.lean builds the register from them. -/
structure State where
  /-- `CFG`, and with it STATUS.READY (R26, R39) -/
  cfg : Cfg
  /-- `QTAB[0..63]` (R22) -/
  qtab : Table
  /-- `LANES`, 6 bits (R25) -/
  lanes : BitVec Config.lanesW
  /-- the ten operand registers (R27) -/
  regs : OperandRegs
  /-- STATUS.BUSY (R36) -/
  busy : Bool
  /-- STATUS.DONE (R36) -/
  done : Bool
  /-- STATUS.FAULT, sticky (R38) -/
  fault : Bool
  /-- STATUS.ERR (R37) -/
  err : Err
  /-- `RESULT` (R42) -/
  result : Word
  /-- `RESULT_HI` (R42) -/
  resultHi : Word
  /-- `M` (R44) -/
  mem : Memory
  /-- the hidden state of the command in flight (R47); `none` when the engine is idle -/
  inflight : Option InFlight
  /-- the model's own: the host actions and engine steps still to come, first first (R103; DESIGN CHOICE,
  notes/assumptions/5.md) -/
  script : List Event
  /-- the model's own: what the host has observed, newest first (DESIGN CHOICE, notes/assumptions/18.md) -/
  observed : List Observation
  /-- the model's own: how many free values have been drawn (DESIGN CHOICE, notes/assumptions/3.md) -/
  tick : Nat
deriving DecidableEq, Repr

/-- Every operand register zero, as after reset (R50). -/
def OperandRegs.zero : OperandRegs := ⟨0, 0, 0, 0, 0, 0, 0, 0, 0, 0⟩

/-- `QTAB` after the `k`-th reset: unspecified (R50), so a free value (DESIGN CHOICE, notes/assumptions/2.md). -/
@[irreducible] def tableAfterReset (k : Nat) : Table := Vector.ofFn (Config.resetTable k)

/-- `LANES` after the `k`-th reset: unspecified in 1 to 32 (R50, U13), so a free value (DESIGN CHOICE, notes/assumptions/2.md). -/
def lanesAfterReset (k : Nat) : BitVec Config.lanesW := BitVec.ofNat Config.lanesW (Config.resetLanes k).value

/-- The machine right after reset (R50, R250). Memory lists nothing; `tick` is 1 because the reset drew free value 0. -/
def State.reset : State where
  cfg := .unconfigured
  qtab := tableAfterReset 0
  lanes := lanesAfterReset 0
  regs := OperandRegs.zero
  busy := false
  done := false
  fault := false
  err := .ok
  result := 0
  resultHi := 0
  mem := []
  inflight := none
  script := []
  observed := []
  tick := 1

end Sys2Proof.Machine
end

