-- ==== Sys2Proof/Machine/Ops.lean ====
section
/-! DEFINITION. The named operations over memory and registers: byte order (20_memory.md R60), reads and writes of `M`
(00_scope.md R15), the construction and the replacement of the configuration (40_quant_table.md R112 to R118), the completion of
a command and the raising of an error (R110, 60_exceptions.md R228). An error's return does not exist: control goes nowhere and
the host issues its next command (R229, R231), so nothing stands beside `State.raise`. -/

namespace Sys2Proof.Machine

/-! ## Integer functions (R14) -/

/-- `ceil_div(a, n)`. -/
def ceilDiv (a : Int) (n : Nat) : Int := (a + n - 1) / n

/-- `round_up(a, n)`. -/
def roundUp (a : Int) (n : Nat) : Int := n * ceilDiv a n

/-- `clamp(v, lo, hi)`. -/
def clamp (v lo hi : Int) : Int := if v < lo then lo else if v > hi then hi else v

/-- `clamp16(v)`, as the 16-bit entry it is stored in (R111). -/
def clamp16 (v : Int) : Entry := BitVec.ofInt Config.qw (clamp v 0 Config.qmax)

/-! ## Memory -/

/-- What an address that memory does not list reads as (DESIGN CHOICE, notes/assumptions/4.md). -/
def Memory.background : Byte := 0

/-- The byte at an address. -/
def Memory.read : Memory → Nat → Byte
  | [], _ => Memory.background
  | (b, w) :: rest, a => if a = b then w else Memory.read rest a

/-- Memory with one byte replaced, in canonical form. -/
def Memory.write : Memory → Nat → Byte → Memory
  | [], a, v => if v = Memory.background then [] else [(a, v)]
  | (b, w) :: rest, a, v =>
    if a < b then (if v = Memory.background then (b, w) :: rest else (a, v) :: (b, w) :: rest)
    else if a = b then (if v = Memory.background then rest else (a, v) :: rest)
    else (b, w) :: Memory.write rest a v

/-- The canonical form: addresses strictly rising, inside the 2^32 bytes of `M`, and no byte equal to what an unlisted address
reads as. -/
def Memory.wf : Memory → Bool
  | [] => true
  | (a, v) :: rest =>
    decide (a < Config.memBytes) && !(v == Memory.background) && rest.all (fun c => decide (a < c.1)) && Memory.wf rest

/-- The bytes of a list of cells stored one after the other. -/
def Memory.writeCells (m : Memory) (cells : List Host.Cell) : Memory := cells.foldl (fun m c => m.write c.1 c.2) m

/-- The cells of bytes that stand at consecutive addresses. -/
def cellsAt : Nat → List Byte → List Host.Cell
  | _, [] => []
  | a, b :: bs => (a, b) :: cellsAt (a + 1) bs

/-- The low `n` bytes of a number, least significant first (R60). -/
def leBytes : Nat → Nat → List Byte
  | 0, _ => []
  | n + 1, v => BitVec.ofNat 8 v :: leBytes n (v / 256)

/-- The number whose bytes, least significant first, are these (R60). -/
def leValue : List Byte → Nat
  | [] => 0
  | b :: bs => b.toNat + 256 * leValue bs

/-- `MemReadBytes(a, n)` as a list, index 0 first (R15). -/
def Memory.readBytes (m : Memory) : Nat → Nat → List Byte
  | _, 0 => []
  | a, n + 1 => m.read a :: m.readBytes (a + 1) n

/-- `MemReadBytes(a, n)` as a function of the index (R15). -/
def Memory.block (m : Memory) (a n : Nat) : Fin n → Byte := fun k => m.read (a + k.val)

/-- `MemRead(a, n)` (R15). -/
def Memory.readLe (m : Memory) (a n : Nat) : Nat := leValue (m.readBytes a n)

/-- The cells that `MemWrite(a, n, v)` stores (R15). -/
def memWriteCells (a n v : Nat) : List Host.Cell := cellsAt a (leBytes n v)

/-! ## Registers and the configuration -/

/-- The constant table `QROM` (R21). -/
@[irreducible] def qrom (p : Profile) : Table := Vector.ofFn p.defaultQtab

/-- The replacement of the whole live table in one update (R118). -/
def State.setTable (t : Table) (s : State) : State := { s with qtab := t }

/-- The construction of the configuration with a table: INIT and INITQ (R112, R114). -/
def State.construct (p : Profile) (t : Table) (s : State) : State :=
  { s with qtab := t, lanes := BitVec.ofNat Config.lanesW p.lanesReset, cfg := .ready }

/-- The thread count (R176). -/
def State.setLanes (n : Nat) (s : State) : State := { s with lanes := BitVec.ofNat Config.lanesW n }

/-- `RESULT_HI:RESULT` (R42). -/
def State.setResult (v : BitVec 64) (s : State) : State :=
  { s with result := v.extractLsb' 0 32, resultHi := v.extractLsb' 32 32 }

/-- Bytes stored to `M`. -/
def State.storeCells (cells : List Host.Cell) (s : State) : State := { s with mem := s.mem.writeCells cells }

/-- The operand registers as the host writes them (R28). -/
def State.setRegs (r : OperandRegs) (s : State) : State := { s with regs := r }

/-- One more observation of the host (R103). -/
def State.observe (o : Observation) (s : State) : State := { s with observed := o :: s.observed }

/-- A free value has been drawn. -/
def State.nextTick (s : State) : State := { s with tick := s.tick + 1 }

/-! ## Acceptance, completion and error -/

/-- A code that also sets the sticky FAULT bit: 4 and 5 (R38). -/
def Err.sticky : Err → Bool
  | .ok => false
  | .configError => false
  | .rangeError => false
  | .stateError => false
  | .accessFault => true
  | .illegalCommand => true

/-- Acceptance: the operands are sampled, BUSY becomes 1 and DONE 0 in one step (R29, R36, R90). -/
def State.accept (w : Word) (s : State) : State :=
  { s with busy := true, done := false, inflight := some ⟨w, s.regs, .checks⟩ }

/-- The successful completion of a command (R110). -/
def State.complete (s : State) : State := { s with err := .ok, busy := false, done := true, inflight := none }

/-- A command raises error `e`: the one operation that takes an exception. ERR holds the code, FAULT is set by codes 4 and 5
only, BUSY falls and DONE rises, and nothing else of the architectural state changes (R110, R228; DEDUCED,
notes/assumptions/7.md and 14.md). -/
def State.raise (e : Err) (s : State) : State :=
  { s with err := e, fault := s.fault || e.sticky, busy := false, done := true, inflight := none }

/-- The completion of a word that spells no command (R95, R96). -/
def State.illegal (s : State) : State := s.raise .illegalCommand

end Sys2Proof.Machine
end

