-- ==== Sys2Proof/Machine/Operands.lean ====
section
/-! DEFINITION. Every operand form of the engine: the registers of the register port (10_state.md R43), the operand registers
as commands read them (R27), the source and destination windows (20_memory.md R66, R67), the regions (43_decode.md R179,
44_dc_seq.md R201). -/

namespace Sys2Proof.Machine

/-! ## Registers of the port -/

/-- The operand registers by name (R27). -/
inductive OperandReg where
  | frameW | frameH | srcBase | srcLen | dstBase | dstLen | a0 | a1 | a2 | a3
deriving DecidableEq, Repr

/-- The registers of the register block by name (R43). -/
inductive PortReg where
  | cmd | status | result | resultHi
  | operand (r : OperandReg)
  | reserved
deriving DecidableEq, Repr

/-- The register at an offset of the register block (R43). -/
def portRegAt (offset : Nat) : PortReg :=
  match offset with
  | 0x00 => .cmd
  | 0x04 => .status
  | 0x08 => .result
  | 0x0C => .resultHi
  | 0x10 => .operand .frameW
  | 0x14 => .operand .frameH
  | 0x18 => .operand .srcBase
  | 0x1C => .operand .srcLen
  | 0x20 => .operand .dstBase
  | 0x24 => .operand .dstLen
  | 0x28 => .operand .a0
  | 0x2C => .operand .a1
  | 0x30 => .operand .a2
  | 0x34 => .operand .a3
  | _ => .reserved

/-- The offset of an operand register (R43). -/
def OperandReg.offset : OperandReg → Nat
  | .frameW => 0x10
  | .frameH => 0x14
  | .srcBase => 0x18
  | .srcLen => 0x1C
  | .dstBase => 0x20
  | .dstLen => 0x24
  | .a0 => 0x28
  | .a1 => 0x2C
  | .a2 => 0x30
  | .a3 => 0x34

/-- The address of a register in the register space: its offset from `ENGINE_BASE` (R43, R44; DEDUCED,
notes/assumptions/19.md). -/
def registerAddress (p : Profile) (offset : Nat) : Nat := p.engineBase + offset

/-- A legal register-port access: 32 bits, aligned to 4 bytes, inside the 256-byte block (R43, R72). -/
def portAccessOk (bytes offset : Nat) : Bool := bytes == 4 && offset % 4 == 0 && decide (offset < Config.portBytes)

/-- The value of an operand register. -/
def OperandRegs.get (r : OperandRegs) : OperandReg → Word
  | .frameW => r.frameW
  | .frameH => r.frameH
  | .srcBase => r.srcBase
  | .srcLen => r.srcLen
  | .dstBase => r.dstBase
  | .dstLen => r.dstLen
  | .a0 => r.a0
  | .a1 => r.a1
  | .a2 => r.a2
  | .a3 => r.a3

/-- The operand registers with one of them written: every bit is writable, no value is illegal (R28). -/
def OperandRegs.set (r : OperandRegs) (n : OperandReg) (v : Word) : OperandRegs :=
  match n with
  | .frameW => { r with frameW := v }
  | .frameH => { r with frameH := v }
  | .srcBase => { r with srcBase := v }
  | .srcLen => { r with srcLen := v }
  | .dstBase => { r with dstBase := v }
  | .dstLen => { r with dstLen := v }
  | .a0 => { r with a0 := v }
  | .a1 => { r with a1 := v }
  | .a2 => { r with a2 := v }
  | .a3 => { r with a3 := v }

/-! ## Windows -/

/-- A window of memory: its first byte and its length. -/
structure Window where
  base : Nat
  len : Nat
deriving DecidableEq, Repr

/-- The window does not wrap past the top of the address space (R66, R67). -/
def Window.wellFormed (w : Window) : Bool := decide (w.base + w.len ≤ Config.memBytes)

/-- `in_src(a, n)` and `in_dst(a, n)` over the integers (R66, R67). -/
def Window.holds (w : Window) (a n : Nat) : Bool := decide (w.base ≤ a) && decide (a + n ≤ w.base + w.len)

/-- An access check: every check against a window that is not well formed fails (R66). -/
def Window.admits (w : Window) (a n : Nat) : Bool := w.wellFormed && w.holds a n

/-- The byte at an address belongs to the window. -/
def Window.covers (w : Window) (a : Nat) : Bool := decide (w.base ≤ a) && decide (a < w.base + w.len)

/-- The source window (R66). -/
def OperandRegs.src (r : OperandRegs) : Window := ⟨r.srcBase.toNat, r.srcLen.toNat⟩

/-- The destination window (R67). -/
def OperandRegs.dst (r : OperandRegs) : Window := ⟨r.dstBase.toNat, r.dstLen.toNat⟩

/-- Two byte ranges share no byte (R68). -/
def rangesDisjoint (a n b m : Nat) : Bool := decide (a + n ≤ b) || decide (b + m ≤ a)

/-! ## Geometry operands -/

/-- The declared width `W` (R27). -/
def OperandRegs.width (r : OperandRegs) : Int := r.frameW.toInt

/-- The declared height `H` (R27). -/
def OperandRegs.height (r : OperandRegs) : Int := r.frameH.toInt

/-- The region of DECF: the whole frame, whatever A0 to A3 hold (R155, R179). -/
def OperandRegs.fullRegion (r : OperandRegs) : Region := ⟨0, 0, r.width, r.height⟩

/-- The region of DECR (R179). -/
def OperandRegs.region (r : OperandRegs) : Region := ⟨r.a0.toInt, r.a1.toInt, r.a2.toInt, r.a3.toInt⟩

/-- The request of DECDC (R201). -/
def OperandRegs.dcRegion (r : OperandRegs) : DcRegion := ⟨r.a0.toInt, r.a1.toInt, r.a2.toInt, r.a3.toInt⟩

/-- Source value `i` of INITQ and QSET: the `s32` at `SRC_BASE + 4*i` (R62). -/
def sourceValue (m : Memory) (r : OperandRegs) (i : Nat) : Int :=
  (BitVec.ofNat Config.qvalW (m.readLe (r.srcBase.toNat + Config.sourceValueBytes * i) Config.sourceValueBytes)).toInt

/-- The 64 clamped values `t[0..63]` that INITQ and QSET compute before they commit (R114, R116, R118). -/
@[irreducible] def clampedTable (m : Memory) (r : OperandRegs) : Table := Vector.ofFn fun i => clamp16 (sourceValue m r i.val)

end Sys2Proof.Machine
end

