-- ==== Sys2Proof/Machine/Flags.lean ====
section
/-! DEFINITION. The STATUS register (10_state.md R35 to R39), the only flags there are (R40), and the frame every command runs in,
which fixes what each completion does to them (40_quant_table.md R110, 60_exceptions.md R227). -/

namespace Sys2Proof.Machine

/-- The 4-bit code of an outcome (R37). -/
def Err.code : Err → BitVec 4
  | .ok => 0
  | .configError => 1
  | .rangeError => 2
  | .stateError => 3
  | .accessFault => 4
  | .illegalCommand => 5

/-- `STATUS.READY` mirrors `CFG` (R39). -/
def State.ready (s : State) : Bool := s.cfg == .ready

/-- The STATUS register: reserved bits 31:8 zero, ERR 7:4, FAULT 3, READY 2, DONE 1, BUSY 0 (R35). -/
def State.status (s : State) : Word :=
  0#24 ++ s.err.code ++ BitVec.ofBool s.fault ++ BitVec.ofBool s.ready ++ BitVec.ofBool s.done ++ BitVec.ofBool s.busy

/-- The parts of a command that differ from command to command, in the order of the frame of R110: whether it requires READY
(step 2), its configuration check (step 3), its range check (step 4), its access check (step 5) and its effect (step 6). The
checks read the sampled operands and nothing else of the state. -/
structure Command where
  needsReady : Bool
  configOk : Bool
  rangeOk : OperandRegs → Bool
  accessOk : OperandRegs → Bool
  effect : OperandRegs → State → State

/-- The error a command reports, if any: the first in the order of R227 (`IllegalCommand` comes before, in the decoder). -/
def Command.error (c : Command) (cfg : Cfg) (ops : OperandRegs) : Option Err :=
  if c.needsReady && cfg == .unconfigured then some .stateError
  else if !c.configOk then some .configError
  else if !c.rangeOk ops then some .rangeError
  else if !c.accessOk ops then some .accessFault
  else none

/-- What a command does at the atomic level: the whole frame of R110 as one transition. -/
def Command.apply (c : Command) (s : State) : State :=
  match c.error s.cfg s.regs with
  | some e => s.raise e
  | none => (c.effect s.regs s).complete

/-- The meaning of a command: every command completes (R271; DESIGN CHOICE, notes/assumptions/13.md). -/
def Command.run (c : Command) (s : State) : Host.Outcome State Fault Refusal := .next (c.apply s)

end Sys2Proof.Machine
end

