-- ==== Sys2Proof/Machine/Geometry.lean ====
section
/-! DEFINITION. The range validator, the block grid and the two address mappers (42_range_map.md). All arithmetic is over the
integers (R13). -/

namespace Sys2Proof.Machine

/-! ## The block grid (R158, R161) -/

/-- `line_bytes(W)`. -/
def lineBytes (w : Int) : Int := roundUp w Config.lineAlign

/-- `NBX(W)`, 0 for `W <= 0`. -/
def nbx (w : Int) : Nat := if w ≤ 0 then 0 else (ceilDiv (lineBytes w) Config.blk).toNat

/-- `NBY(H)`, 0 for `H <= 0`. -/
def nby (h : Int) : Nat := if h ≤ 0 then 0 else (ceilDiv h Config.blk).toNat

/-! ## The validators -/

/-- `valid_roi`: aligned origin (R150), non-negative origin (R151), inside the frame (R152), not empty (R153). -/
def Region.valid (r : Region) (w h : Int) : Bool :=
  decide (r.x % Config.blk = 0) && decide (r.y % Config.blk = 0) &&
  decide (0 ≤ r.x) && decide (0 ≤ r.y) &&
  decide (r.x + r.width ≤ w) && decide (r.y + r.height ≤ h) &&
  decide (0 < r.width) && decide (0 < r.height)

/-- `valid_dc` (R167). -/
def DcRegion.valid (r : DcRegion) (w h : Int) : Bool :=
  decide (1 ≤ r.cols) && decide (1 ≤ r.rows) && decide (0 ≤ r.col) && decide (0 ≤ r.row) &&
  decide (r.col + r.cols ≤ nbx w) && decide (r.row + r.rows ≤ nby h)

/-! ## The covered blocks -/

/-- The blocks with column in `[c, c + n)` and row in `[r, r + m)`, row by row. -/
def blockGrid (c n r m : Nat) : List Block :=
  (List.range m).flatMap fun i => (List.range n).map fun j => ⟨c + j, r + i⟩

/-- `bx_lo`, `bx_hi`, `by_lo`, `by_hi` (R164). -/
def Region.colLo (r : Region) : Nat := (r.x / Config.blk).toNat
def Region.colHi (r : Region) : Nat := ((r.x + r.width - 1) / Config.blk).toNat
def Region.rowLo (r : Region) : Nat := (r.y / Config.blk).toNat
def Region.rowHi (r : Region) : Nat := ((r.y + r.height - 1) / Config.blk).toNat

/-- `blocks(x, y, width, height)` (R164). -/
def Region.blocks (r : Region) : List Block :=
  blockGrid r.colLo (r.colHi + 1 - r.colLo) r.rowLo (r.rowHi + 1 - r.rowLo)

/-- The covered blocks of a DC request (R168). -/
def DcRegion.blocks (r : DcRegion) : List Block := blockGrid r.col.toNat r.cols.toNat r.row.toNat r.rows.toNat

/-- The DC request for the blocks a pixel region covers. The host makes this conversion; the engine does not (R202). -/
def Region.dcRequest (r : Region) : DcRegion where
  col := r.x / Config.blk
  row := r.y / Config.blk
  cols := (r.x + r.width - 1) / Config.blk - r.x / Config.blk + 1
  rows := (r.y + r.height - 1) / Config.blk - r.y / Config.blk + 1

/-! ## The address mappers -/

/-- `src_addr(bx, by)` (R163). -/
def srcAddr (p : Profile) (ops : OperandRegs) (b : Block) : Nat :=
  ops.srcBase.toNat + p.blkOff b.col b.row (nbx ops.width) (nby ops.height)

/-- `dst_addr(i, j)` of an image of `cols` columns (R65). -/
def dstAddr (ops : OperandRegs) (cols i j : Nat) : Nat := ops.dstBase.toNat + (i * cols + j) * Config.pixBytes

/-- The bytes of a compressed block (R163). -/
def blockBytes (p : Profile) (ops : OperandRegs) (m : Memory) (b : Block) : Fin p.blockBytes → Byte :=
  m.block (srcAddr p ops b) p.blockBytes

end Sys2Proof.Machine
end

