-- ==== Sys2Proof/Machine/Kernel.lean ====
section
/-! DEFINITION. The block kernel (41_block_kernel.md): the dequantizer between the `OPEN` stages `unpack` and `itrans`, and the DC
extractor before the `OPEN` stage `dcmap`. -/

namespace Sys2Proof.Machine

/-- The product of one level and one entry: signed by unsigned, exact in `s32` (R132, R134). -/
def deqProduct (l : Level) (q : Entry) : Coef := BitVec.ofInt Config.coefW (l.toInt * q.toNat)

/-- `DEQ(lev, q)` (R132): position `i` uses entry `i` and no other (R133). -/
def deq (lev : Position → Level) (q : Table) : Position → Coef := fun i => deqProduct (lev i) q[i]

/-- `kernel(b, q) = itrans(DEQ(unpack(b), q))` (R137). -/
def kernel (p : Profile) (b : Fin p.blockBytes → Byte) (q : Table) : Position → Pixel :=
  p.itrans (deq (p.unpack b) q)

/-- `DCX(b)`: the level at coefficient position 0 (R139). -/
def dcx (p : Profile) (b : Fin p.blockBytes → Byte) : Level := p.unpack b 0

/-- The DC sample of a block (R140). -/
def dcSample (p : Profile) (b : Fin p.blockBytes → Byte) (q : Table) : Pixel := p.dcmap (dcx p b) q[0]

end Sys2Proof.Machine
end

