-- ==== Sys2Proof/Machine/Blocks.lean ====
section
/-! DEFINITION. The block work of a decode command: its checks (43_decode.md R182, 44_dc_seq.md R205), the bytes one block step
writes (R181, R187, R203) and the image they make up (R183, R204). -/

namespace Sys2Proof.Machine

/-- The covered blocks (R164, R168). -/
def Job.blocks : Job → List Block
  | .pixels r => r.blocks
  | .dc r => r.blocks

/-- Rows of the output image (R65). -/
def Job.rows : Job → Nat
  | .pixels r => r.height.toNat
  | .dc r => r.rows.toNat

/-- Columns of the output image (R65). -/
def Job.cols : Job → Nat
  | .pixels r => r.width.toNat
  | .dc r => r.cols.toNat

/-- Bytes of the output image (R65). -/
def Job.outBytes (j : Job) : Nat := j.rows * j.cols * Config.pixBytes

/-- The validator the job goes through (R154, R167). -/
def Job.rangeOk (j : Job) (ops : OperandRegs) : Bool :=
  match j with
  | .pixels r => r.valid ops.width ops.height
  | .dc r => r.valid ops.width ops.height

/-- `decode_access_ok` and `dc_access_ok`: every covered block inside the source window, the image inside the destination window,
and no byte of a block in the image (R182, R205). -/
def Job.accessOk (j : Job) (p : Profile) (ops : OperandRegs) : Bool :=
  ops.src.wellFormed && ops.dst.admits ops.dstBase.toNat j.outBytes &&
  j.blocks.all fun b =>
    ops.src.admits (srcAddr p ops b) p.blockBytes &&
    rangesDisjoint (srcAddr p ops b) p.blockBytes ops.dstBase.toNat j.outBytes

/-- The bytes that sample `(i, j)` of the image occupies when its value is `v` (R65). -/
def sampleCells (ops : OperandRegs) (cols i j : Nat) (v : Pixel) : List Host.Cell :=
  memWriteCells (dstAddr ops cols i j) Config.pixBytes v.toNat

/-- What the step of one block writes for a pixel region: output index `k` of the kernel is the sample at row `k div 8`, column
`k mod 8` of the block (R138), and only the samples inside the region are written (R160, R181). -/
@[irreducible] def pixelCells (ops : OperandRegs) (r : Region) (b : Block) (px : Position → Pixel) : List Host.Cell :=
  (List.finRange Config.qn).flatMap fun k =>
    let x : Int := Config.blk * b.col + (k.val % Config.blk : Nat)
    let y : Int := Config.blk * b.row + (k.val / Config.blk : Nat)
    if r.x ≤ x ∧ x < r.x + r.width ∧ r.y ≤ y ∧ y < r.y + r.height then
      sampleCells ops r.width.toNat (y - r.y).toNat (x - r.x).toNat (px k)
    else []

/-- What the step of one block writes for a DC request: the one sample of the block (R203). -/
def dcCells (ops : OperandRegs) (r : DcRegion) (b : Block) (v : Pixel) : List Host.Cell :=
  if r.col ≤ b.col ∧ (b.col : Int) < r.col + r.cols ∧ r.row ≤ b.row ∧ (b.row : Int) < r.row + r.rows then
    sampleCells ops r.cols.toNat ((b.row : Int) - r.row).toNat ((b.col : Int) - r.col).toNat v
  else []

/-- What the step of one block writes, read from memory `m` with table `q` (R187). -/
def Job.cells (j : Job) (p : Profile) (q : Table) (ops : OperandRegs) (m : Memory) (b : Block) : List Host.Cell :=
  match j with
  | .pixels r => pixelCells ops r b (kernel p (blockBytes p ops m b) q)
  | .dc r => dcCells ops r b (dcSample p (blockBytes p ops m b) q)

/-- All that a decode command writes at the atomic level: every block read from the memory at acceptance (R79, R184). -/
def Job.allCells (j : Job) (p : Profile) (q : Table) (ops : OperandRegs) (m : Memory) : List Host.Cell :=
  j.blocks.flatMap (j.cells p q ops m)

/-- A decode command with the given work (R110, R181, R203). -/
def decodeCommand (p : Profile) (job : OperandRegs → Job) : Command where
  needsReady := true
  configOk := true
  rangeOk := fun ops => (job ops).rangeOk ops
  accessOk := fun ops => (job ops).accessOk p ops
  effect := fun ops s => s.storeCells ((job ops).allCells p s.qtab ops s.mem)

/-- The full image of the frame at pixel row `y`, column `x` (R162, R183). -/
def fullSample (p : Profile) (q : Table) (ops : OperandRegs) (m : Memory) (y x : Nat) : Pixel :=
  kernel p (blockBytes p ops m ⟨x / Config.blk, y / Config.blk⟩) q (Fin.ofNat Config.qn (y % Config.blk * Config.blk + x % Config.blk))

/-- The DC image of the whole grid at block row `row`, block column `col` (R204). -/
def dcImageSample (p : Profile) (q : Table) (ops : OperandRegs) (m : Memory) (row col : Nat) : Pixel :=
  dcSample p (blockBytes p ops m ⟨col, row⟩) q

/-- Sample `(i, k)` of the image a job writes (R183, R204). -/
def Job.sample (j : Job) (p : Profile) (q : Table) (ops : OperandRegs) (m : Memory) (i k : Nat) : Pixel :=
  match j with
  | .pixels r => fullSample p q ops m (r.y.toNat + i) (r.x.toNat + k)
  | .dc r => dcImageSample p q ops m (r.row.toNat + i) (r.col.toNat + k)

end Sys2Proof.Machine
end

