-- ==== Sys2Proof/Machine/DcSeq.lean ====
section
/-! DEFINITION. The DC fast decode and sequence extraction commands DECDC, SEQX (44_dc_seq.md). -/

namespace Sys2Proof.Machine

/-- The work of DECDC (R201, R203). -/
def decdcJob (ops : OperandRegs) : Job := .dc ops.dcRegion

/-- DECDC (R203). -/
def decdcCommand (p : Profile) : Command := decodeCommand p decdcJob

/-- The address of the sequence field (R210). -/
def seqAddr (p : Profile) (ops : OperandRegs) : Nat := ops.srcBase.toNat + p.seqOffset ops.frameW ops.frameH

/-- The sequence number: the field as an unsigned integer, zero-extended to 64 bits (R210, R211, R214). -/
def seqValue (p : Profile) (ops : OperandRegs) (m : Memory) : BitVec 64 :=
  BitVec.ofNat 64 (m.readLe (seqAddr p ops) p.seqBytes)

/-- SEQX (R211): no geometry check (R212). -/
def seqxCommand (p : Profile) : Command where
  needsReady := true
  configOk := true
  rangeOk := fun _ => true
  accessOk := fun ops => ops.src.admits (seqAddr p ops) p.seqBytes
  effect := fun ops s => s.setResult (seqValue p ops s.mem)

/-- The meaning of DECDC (R203). -/
def execDecdc (s : State) : Host.Outcome State Fault Refusal := (decdcCommand Config.sensor).run s

/-- The meaning of SEQX (R211). -/
def execSeqx (s : State) : Host.Outcome State Fault Refusal := (seqxCommand Config.sensor).run s

end Sys2Proof.Machine
end

