-- ==== Sys2Proof/Machine/FullDecode.lean ====
section
/-! DEFINITION. The thread count and full decode commands LSET, LGET, DECF, DECR (43_decode.md). -/

namespace Sys2Proof.Machine

/-- LSET n (R176). -/
def lsetCommand (n : Nat) : Command where
  needsReady := true
  configOk := decide (Config.lanesMin ≤ n) && decide (n ≤ Config.lanesMax)
  rangeOk := fun _ => true
  accessOk := fun _ => true
  effect := fun _ s => s.setLanes n

/-- LGET (R178). -/
def lgetCommand : Command where
  needsReady := true
  configOk := true
  rangeOk := fun _ => true
  accessOk := fun _ => true
  effect := fun _ s => s.setResult (s.lanes.setWidth 64)

/-- The work of DECF (R179, R180). -/
def decfJob (ops : OperandRegs) : Job := .pixels ops.fullRegion

/-- The work of DECR (R179, R181). -/
def decrJob (ops : OperandRegs) : Job := .pixels ops.region

/-- DECF (R180). -/
def decfCommand (p : Profile) : Command := decodeCommand p decfJob

/-- DECR (R181). -/
def decrCommand (p : Profile) : Command := decodeCommand p decrJob

/-- The meaning of LSET n (R176). -/
def execLset (n : Nat) (s : State) : Host.Outcome State Fault Refusal := (lsetCommand n).run s

/-- The meaning of LGET (R178). -/
def execLget (s : State) : Host.Outcome State Fault Refusal := lgetCommand.run s

/-- The meaning of DECF (R180). -/
def execDecf (s : State) : Host.Outcome State Fault Refusal := (decfCommand Config.sensor).run s

/-- The meaning of DECR (R181). -/
def execDecr (s : State) : Host.Outcome State Fault Refusal := (decrCommand Config.sensor).run s

end Sys2Proof.Machine
end

