-- ==== Sys2Proof/Machine/Table.lean ====
section
/-! DEFINITION. The quantization table commands INIT, INITQ, QSET, QGET (40_quant_table.md). -/

namespace Sys2Proof.Machine

/-- INIT (R112): no check of its own, legal in both states (R113). -/
def initCommand (p : Profile) : Command where
  needsReady := false
  configOk := true
  rangeOk := fun _ => true
  accessOk := fun _ => true
  effect := fun _ s => s.construct p (qrom p)

/-- INITQ n (R114): the length, then the 256-byte image inside the source window; legal in both states (R113). -/
def initqCommand (p : Profile) (n : Nat) : Command where
  needsReady := false
  configOk := n == Config.qn
  rangeOk := fun _ => true
  accessOk := fun ops => ops.src.admits ops.srcBase.toNat (Config.sourceValueBytes * Config.qn)
  effect := fun ops s => s.construct p (clampedTable s.mem ops)

/-- QSET n (R116). -/
def qsetCommand (n : Nat) : Command where
  needsReady := true
  configOk := n == Config.qn
  rangeOk := fun _ => true
  accessOk := fun ops => ops.src.admits ops.srcBase.toNat (Config.sourceValueBytes * Config.qn)
  effect := fun ops s => s.setTable (clampedTable s.mem ops)

/-- The 128 bytes of the table read-back image (R63). -/
@[irreducible] def readBackCells (q : Table) (ops : OperandRegs) : List Host.Cell :=
  (List.finRange Config.qn).flatMap fun i =>
    memWriteCells (ops.dstBase.toNat + Config.readBackBytes * i.val) Config.readBackBytes (q[i]).toNat

/-- QGET (R120). -/
def qgetCommand : Command where
  needsReady := true
  configOk := true
  rangeOk := fun _ => true
  accessOk := fun ops => ops.dst.admits ops.dstBase.toNat (Config.readBackBytes * Config.qn)
  effect := fun ops s => s.storeCells (readBackCells s.qtab ops)

/-- The meaning of INIT (R112). -/
def execInit (s : State) : Host.Outcome State Fault Refusal := (initCommand Config.sensor).run s

/-- The meaning of INITQ n (R114). -/
def execInitq (n : Nat) (s : State) : Host.Outcome State Fault Refusal := (initqCommand Config.sensor n).run s

/-- The meaning of QSET n (R116). -/
def execQset (n : Nat) (s : State) : Host.Outcome State Fault Refusal := (qsetCommand n).run s

/-- The meaning of QGET (R120). -/
def execQget (s : State) : Host.Outcome State Fault Refusal := qgetCommand.run s

end Sys2Proof.Machine
end

