-- ==== Sys2Proof/Syntax.lean ====
section
/-! DEFINITION. The ten commands of the BDQ8 engine, one constructor per row of spec/opcode_table.json (30_encoding.md R93). -/

namespace Sys2Proof

/-- A command. The operand of INITQ, QSET and LSET is the unsigned integer `n = zext(imm24)` of R92; a command word carries no
other operand (R94). -/
inductive Instr where
  /-- construct with the default table (R112) -/
  | init
  /-- construct with a table of `n` values from memory (R114) -/
  | initq (n : Nat)
  /-- replace the live table by `n` clamped values (R116) -/
  | qset (n : Nat)
  /-- write the live table to memory (R120) -/
  | qget
  /-- set the thread count to `n` (R176) -/
  | lset (n : Nat)
  /-- read the thread count into RESULT (R178) -/
  | lget
  /-- decode the whole frame (R180) -/
  | decf
  /-- decode a region of interest (R181) -/
  | decr
  /-- decode the DC sample of each block of a block region (R203) -/
  | decdc
  /-- read the embedded sequence number (R211) -/
  | seqx
deriving DecidableEq, Repr

/-- The mnemonic of a command (R93, R101). -/
def Instr.mnemonic : Instr → String
  | .init => "INIT"
  | .initq _ => "INITQ"
  | .qset _ => "QSET"
  | .qget => "QGET"
  | .lset _ => "LSET"
  | .lget => "LGET"
  | .decf => "DECF"
  | .decr => "DECR"
  | .decdc => "DECDC"
  | .seqx => "SEQX"

/-- The operand of INITQ, QSET and LSET (R92). -/
def Instr.operand : Instr → Option Nat
  | .initq n => some n
  | .qset n => some n
  | .lset n => some n
  | .init => none
  | .qget => none
  | .lget => none
  | .decf => none
  | .decr => none
  | .decdc => none
  | .seqx => none

end Sys2Proof
end

