-- ==== Sys2Proof/Machine/Dispatch.lean ====
section
/-! DEFINITION. The meaning of every command: one arm per constructor of Instr, each one call of that command's own meaning. -/

namespace Sys2Proof.Machine

def exec (i : Instr) (s : State) : Host.Outcome State Fault Refusal :=
  match i with
  | .init => Sys2Proof.Machine.execInit s
  | .initq n => Sys2Proof.Machine.execInitq n s
  | .qset n => Sys2Proof.Machine.execQset n s
  | .qget => Sys2Proof.Machine.execQget s
  | .lset n => Sys2Proof.Machine.execLset n s
  | .lget => Sys2Proof.Machine.execLget s
  | .decf => Sys2Proof.Machine.execDecf s
  | .decr => Sys2Proof.Machine.execDecr s
  | .decdc => Sys2Proof.Machine.execDecdc s
  | .seqx => Sys2Proof.Machine.execSeqx s

end Sys2Proof.Machine
end

