-- ==== Sys2Proof/WellFormed.lean ====
section
/-! DEFINITION. Which commands a command word can spell (30_encoding.md R92). -/

namespace Sys2Proof

/-- The operand fits `imm24`: 0 to 16777215 (R92). The three commands with an operand are the only ones with a check. -/
def Instr.wellFormed (i : Instr) : Bool :=
  match i.operand with
  | some n => decide (n < 16777216)
  | none => true

/-- A well-formed command. -/
abbrev Instr.WellFormed (i : Instr) : Prop := i.wellFormed = true

end Sys2Proof
end

