-- ==== Sys2Proof/Decode.lean ====
section
/-! DEFINITION. The command decoder and encoder (30_encoding.md R90 to R100): total on every 32-bit word, refusing by name. -/

namespace Sys2Proof

/-- Why a word spells no command (R95, R96). Both are the `Illegal` of R99. -/
inductive DecodeError where
  /-- `op` is not one of the ten opcodes (R95) -/
  | unknownOpcode
  /-- `imm24` is not zero where zero is required (R96) -/
  | reservedImmediate
deriving DecidableEq, Repr

/-- `op` = bits 31:24 of a command word (R91). -/
def opField (w : Word) : Nat := (w.extractLsb' 24 8).toNat

/-- `imm24` = bits 23:0 of a command word, read as an unsigned integer (R91, R92). -/
def immField (w : Word) : Nat := (w.extractLsb' 0 24).toNat

/-- A command whose `imm24` must be zero (R96). -/
def decodePlain (n : Nat) (i : Instr) : Except DecodeError Instr :=
  if n = 0 then .ok i else .error .reservedImmediate

/-- The decoder of R99. -/
def decode (w : Word) : Except DecodeError Instr :=
  match opField w with
  | 0x01 => decodePlain (immField w) .init
  | 0x02 => .ok (.initq (immField w))
  | 0x10 => .ok (.qset (immField w))
  | 0x11 => decodePlain (immField w) .qget
  | 0x12 => .ok (.lset (immField w))
  | 0x13 => decodePlain (immField w) .lget
  | 0x20 => decodePlain (immField w) .decf
  | 0x21 => decodePlain (immField w) .decr
  | 0x22 => decodePlain (immField w) .decdc
  | 0x23 => decodePlain (immField w) .seqx
  | _ => .error .unknownOpcode

/-- The opcode of a command (R93). -/
def opcode : Instr → BitVec 8
  | .init => 0x01
  | .initq _ => 0x02
  | .qset _ => 0x10
  | .qget => 0x11
  | .lset _ => 0x12
  | .lget => 0x13
  | .decf => 0x20
  | .decr => 0x21
  | .decdc => 0x22
  | .seqx => 0x23

/-- The encoder of R99: `(op << 24) | n`, with `n = 0` where there is no operand. -/
def encode (i : Instr) : Word := opcode i ++ BitVec.ofNat 24 (i.operand.getD 0)

/-- One row of the opcode table: a word selects it when its bits under `mask` are `pattern` (R100). -/
structure OpcodeRow where
  mnemonic : String
  pattern : Word
  mask : Word
deriving DecidableEq, Repr

/-- The word selects the row (R100). -/
def OpcodeRow.selects (r : OpcodeRow) (w : Word) : Bool := (w &&& r.mask) == r.pattern

/-- The opcode table of R100, row by row as spec/opcode_table.json gives it. -/
def opcodeTable : List OpcodeRow :=
  [ ⟨"INIT", 0x01000000, 0xFFFFFFFF⟩,
    ⟨"INITQ", 0x02000000, 0xFF000000⟩,
    ⟨"QSET", 0x10000000, 0xFF000000⟩,
    ⟨"QGET", 0x11000000, 0xFFFFFFFF⟩,
    ⟨"LSET", 0x12000000, 0xFF000000⟩,
    ⟨"LGET", 0x13000000, 0xFFFFFFFF⟩,
    ⟨"DECF", 0x20000000, 0xFFFFFFFF⟩,
    ⟨"DECR", 0x21000000, 0xFFFFFFFF⟩,
    ⟨"DECDC", 0x22000000, 0xFFFFFFFF⟩,
    ⟨"SEQX", 0x23000000, 0xFFFFFFFF⟩ ]

/-- The command this decoder reads from the instruction bits `w` of a row of `nbits` bits: every command is one 32-bit word
(R90, R98), so the bits above `nbits` are zero and `w` is the word. -/
def decodeTableWord (nbits w : Nat) : Option Instr :=
  match decode (BitVec.ofNat 32 (w % 2 ^ nbits)) with
  | .ok i => some i
  | .error _ => none

end Sys2Proof
end

