-- ==== Sys2Proof/Machine/Lanes.lean ====
section
/-! DEFINITION. The lane level: a command in flight between its acceptance and its completion (43_decode.md R187, 10_state.md R47),
step by step. Everything here takes the `OPEN` parameters as an argument. -/

namespace Sys2Proof.Machine

/-- The parts of every command (R110). -/
def commandOf (p : Profile) : Instr → Command
  | .init => initCommand p
  | .initq n => initqCommand p n
  | .qset n => qsetCommand n
  | .qget => qgetCommand
  | .lset n => lsetCommand n
  | .lget => lgetCommand
  | .decf => decfCommand p
  | .decr => decrCommand p
  | .decdc => decdcCommand p
  | .seqx => seqxCommand p

/-- A command at the atomic level, under any profile; `exec` is this under `Config.sensor`. -/
def execWith (p : Profile) (i : Instr) (s : State) : Host.Outcome State Fault Refusal := (commandOf p i).run s

/-- The work a command leaves after its checks: 64 computed values to commit (R118), covered blocks to perform (R187), or nothing,
its effect being one register or memory update made with its completion (DESIGN CHOICE, notes/assumptions/9.md). -/
def workAfterChecks (i : Instr) (ops : OperandRegs) (m : Memory) : Option Work :=
  match i with
  | .initq _ => some (.commit true (clampedTable m ops))
  | .qset _ => some (.commit false (clampedTable m ops))
  | .decf => some (.blocks (decfJob ops) (decfJob ops).blocks)
  | .decr => some (.blocks (decrJob ops) (decrJob ops).blocks)
  | .decdc => some (.blocks (decdcJob ops) (decdcJob ops).blocks)
  | .init => none
  | .qget => none
  | .lset _ => none
  | .lget => none
  | .seqx => none

/-- Steps 1 to 5 of the frame of R110 on the sampled operands, and the effect of a command that leaves no work. -/
def State.runChecks (p : Profile) (f : InFlight) (s : State) : State :=
  match decode f.word with
  | .error _ => s.illegal
  | .ok i =>
    match (commandOf p i).error s.cfg f.ops with
    | some e => s.raise e
    | none =>
      match workAfterChecks i f.ops s.mem with
      | some w => { s with inflight := some { f with work := w } }
      | none => ((commandOf p i).effect f.ops s).complete

/-- The commit of all 64 entries in one transition, with the completion (R118). -/
def State.commit (p : Profile) (constructs : Bool) (t : Table) (s : State) : State :=
  (if constructs then s.construct p t else s.setTable t).complete

/-- One step of the sequencer. A decode command completes when no block is pending: the join barrier (R80, R187). -/
def State.advance (p : Profile) (s : State) : Host.Outcome State Fault Refusal :=
  match s.inflight with
  | none => .refused .noSuchEngineStep
  | some f =>
    match f.work with
    | .checks => .next (s.runChecks p f)
    | .commit c t => .next (s.commit p c t)
    | .blocks _ [] => .next s.complete
    | .blocks _ (_ :: _) => .refused .noSuchEngineStep

/-- A block step: lane `l` removes block `b` from the pending set, reads its bytes and performs its writes (R187;
DEDUCED, notes/assumptions/11.md). -/
def State.laneStep (p : Profile) (l : Nat) (b : Block) (s : State) : Host.Outcome State Fault Refusal :=
  match s.inflight with
  | none => .refused .noSuchEngineStep
  | some f =>
    match f.work with
    | .blocks job pending =>
      if l < s.lanes.toNat ∧ b ∈ pending then
        .next { s.storeCells (job.cells p s.qtab f.ops s.mem b) with
          inflight := some { f with work := .blocks job (pending.erase b) } }
      else .refused .noSuchEngineStep
    | .checks => .refused .noSuchEngineStep
    | .commit _ _ => .refused .noSuchEngineStep

/-- The step an engine takes when the script says nothing: nothing while idle (R242, R252); otherwise the sequencer's step, or
lane 0 on the first pending block (R189; DESIGN CHOICE, notes/assumptions/5.md). -/
def State.unscripted (p : Profile) (s : State) : Host.Outcome State Fault Refusal :=
  match s.inflight with
  | none => .next s
  | some f =>
    match f.work with
    | .blocks _ (b :: _) => s.laneStep p 0 b
    | .blocks _ [] => s.advance p
    | .checks => s.advance p
    | .commit _ _ => s.advance p

/-- The bytes that a command writes if it completes without error: start and length (R75). -/
def writeRange (i : Instr) (ops : OperandRegs) : Nat × Nat :=
  match i with
  | .qget => (ops.dstBase.toNat, Config.readBackBytes * Config.qn)
  | .decf => (ops.dstBase.toNat, (decfJob ops).outBytes)
  | .decr => (ops.dstBase.toNat, (decrJob ops).outBytes)
  | .decdc => (ops.dstBase.toNat, (decdcJob ops).outBytes)
  | .init => (0, 0)
  | .initq _ => (0, 0)
  | .qset _ => (0, 0)
  | .lset _ => (0, 0)
  | .lget => (0, 0)
  | .seqx => (0, 0)

/-- The range a command in flight was going to write (R251): nothing for an illegal word or a command whose checks fail
(DEDUCED, notes/assumptions/15.md). -/
def State.plannedRange (p : Profile) (f : InFlight) (s : State) : Nat × Nat :=
  match decode f.word with
  | .error _ => (0, 0)
  | .ok i =>
    match (commandOf p i).error s.cfg f.ops with
    | some _ => (0, 0)
    | none => writeRange i f.ops

end Sys2Proof.Machine
end

