-- ==== Sys2Proof/Machine/Port.lean ====
section
/-! DEFINITION. The host interface (70_reset_and_hazards.md R272): the register port (10_state.md R43), the host's own accesses to
`M`, the reset event (R250), and the one function that performs an event. -/

namespace Sys2Proof.Machine

/-- A command word at the atomic level (R99, R110, R184): a word that spells no command completes with IllegalCommand (R95). -/
def State.runWord (w : Word) (s : State) : Host.Outcome State Fault Refusal :=
  match decode w with
  | .ok i => exec i s
  | .error _ => .next s.illegal

/-- A host write of a 32-bit value to the register at a legal offset (R28, R41, R43). While BUSY = 1 a write to CMD or to an
operand register is a hazard (R261); STATUS, RESULT, RESULT_HI and the reserved offsets ignore writes at any time. -/
def State.portWrite (offset : Nat) (v : Word) (s : State) : Host.Outcome State Fault Refusal :=
  match portRegAt offset with
  | .cmd => if s.busy then .refused .busyRegisterWrite else s.runWord v
  | .operand r => if s.busy then .refused .busyRegisterWrite else .next (s.setRegs (s.regs.set r v))
  | .status => .next s
  | .result => .next s
  | .resultHi => .next s
  | .reserved => .next s

/-- The value of the register at an offset as a host reads it (R35, R41, R42, R43, R76). -/
def State.portValue (offset : Nat) (s : State) : Word :=
  match portRegAt offset with
  | .cmd => 0
  | .status => s.status
  | .result => s.result
  | .resultHi => s.resultHi
  | .operand r => s.regs.get r
  | .reserved => 0

/-- The commands that give their result in RESULT and RESULT_HI; no other command writes them (R42). -/
def writesResult : Instr → Bool
  | .lget => true
  | .seqx => true
  | .init => false
  | .initq _ => false
  | .qset _ => false
  | .qget => false
  | .lset _ => false
  | .decf => false
  | .decr => false
  | .decdc => false

/-- A command in flight gives its result in RESULT and RESULT_HI. -/
def State.resultPending (s : State) : Bool :=
  match s.inflight with
  | none => false
  | some f =>
    match decode f.word with
    | .ok i => writesResult i
    | .error _ => false

/-- A read of the register at an offset is one for a command's result before its DONE: a hazard (R263, R243; DEDUCED,
notes/assumptions/10.md). -/
def State.readsEarly (offset : Nat) (s : State) : Bool :=
  match portRegAt offset with
  | .result => s.resultPending
  | .resultHi => s.resultPending
  | .cmd => false
  | .status => false
  | .operand _ => false
  | .reserved => false

/-- A host read of a register: an observation, with no effect on the engine (R76). -/
def State.portRead (offset : Nat) (s : State) : Host.Outcome State Fault Refusal :=
  if s.readsEarly offset then .refused .earlyResultRead else .next (s.observe (.register offset (s.portValue offset)))

/-- A host write that does not wait (R90): accepted when BUSY = 0, a hazard otherwise (R260, R261). -/
def State.issueWord (w : Word) (s : State) : Host.Outcome State Fault Refusal :=
  if s.busy then .refused .busyRegisterWrite else .next (s.accept w)

/-- The addresses `a` to `a + n - 1` exist (R44). -/
def inMemory (a n : Nat) : Bool := decide (a + n ≤ Config.memBytes)

/-- A window of the command in flight holds one of the bytes `a` to `a + n - 1` (DEDUCED, notes/assumptions/16.md). -/
def InFlight.touches (f : InFlight) (a n : Nat) : Bool :=
  (List.range n).any fun k => f.ops.src.covers (a + k) || f.ops.dst.covers (a + k)

/-- A host store to `M`. While BUSY = 1 the windows of the command in flight are closed to it (R264); all other memory is open to
it (R272). -/
def State.hostStore (a : Word) (data : List Byte) (s : State) : Host.Outcome State Fault Refusal :=
  if inMemory a.toNat data.length then
    match s.inflight with
    | none => .next (s.storeCells (cellsAt a.toNat data))
    | some f =>
      if f.touches a.toNat data.length then .refused .busyWindowWrite
      else .next (s.storeCells (cellsAt a.toNat data))
  else .fault .noSuchAddress

/-- The byte a host load gives: while BUSY = 1 a byte of the destination window is unspecified (R263, U17). -/
def State.hostByte (s : State) (a : Nat) : Byte :=
  match s.inflight with
  | none => s.mem.read a
  | some f => if f.ops.dst.covers a then Config.freeByte s.tick a else s.mem.read a

/-- A host load from `M`: an observation. -/
def State.hostLoad (a : Word) (n : Nat) (s : State) : Host.Outcome State Fault Refusal :=
  if inMemory a.toNat n then
    .next ((s.observe (.memory a ((List.range n).map fun k => s.hostByte (a.toNat + k)))).nextTick)
  else .fault .noSuchAddress

/-- Memory after reset: untouched (R50), but for the bytes an abandoned command was going to write, which are unspecified
(R251, U14). -/
def State.memAfterReset (p : Profile) (s : State) : Memory :=
  match s.inflight with
  | none => s.mem
  | some f =>
    let r := s.plannedRange p f
    s.mem.writeCells ((List.range r.2).map fun k => (r.1 + k, Config.freeByte s.tick (r.1 + k)))

/-- The reset event (R250): the state of R50, memory untouched, QTAB and LANES unspecified. The host's script and what it has
observed are not the engine's and stay. -/
def State.resetEvent (p : Profile) (s : State) : State :=
  { s with
    cfg := .unconfigured, qtab := tableAfterReset s.tick, lanes := lanesAfterReset s.tick, regs := OperandRegs.zero,
    busy := false, done := false, fault := false, err := .ok, result := 0, resultHi := 0,
    mem := s.memAfterReset p, inflight := none, tick := s.tick + 1 }

/-- What one event does. -/
def State.perform (e : Event) (s : State) : Host.Outcome State Fault Refusal :=
  match e with
  | .write bytes offset v => if portAccessOk bytes offset then s.portWrite offset v else .refused .badPortAccess
  | .read bytes offset => if portAccessOk bytes offset then s.portRead offset else .refused .badPortAccess
  | .store a data => s.hostStore a data
  | .dump a n => s.hostLoad a n
  | .reset => .next (s.resetEvent Config.sensor)
  | .issue w => s.issueWord w
  | .advance => s.advance Config.sensor
  | .lane l b => s.laneStep Config.sensor l b

/-- The events of a script performed one after the other, up to the first that has no meaning (R103, R273). -/
def State.performAll : List Event → State → Host.Outcome State Fault Refusal
  | [], s => .next s
  | e :: es, s =>
    match s.perform e with
    | .next t => State.performAll es t
    | .fault f => .fault f
    | .refused r => .refused r

/-- The first event of the script, which the machine takes next; without one the engine goes on by itself. -/
def State.takeEvent (s : State) : Host.Outcome State Fault Refusal :=
  match s.script with
  | [] => s.unscripted Config.sensor
  | e :: rest => State.perform e { s with script := rest }

/-- `s` with the command word `w` written to CMD as the next event, the engine being idle. -/
def State.placeWord (w : Word) (s : State) : State :=
  { s with busy := false, inflight := none, script := .write 4 0 w :: s.script }

end Sys2Proof.Machine
end

