-- ==== Sys2Proof/Machine/Step.lean ====
section
/-! DEFINITION. One step of the machine. The engine fetches nothing (10_state.md R34): a command comes from the host's write to CMD
(30_encoding.md R90), which is the first event of the script. -/

namespace Sys2Proof.Machine

/-- One step: the first event of the script is performed and taken off it; with an empty script the engine takes its own next step,
and an idle engine holds its state. -/
def step (s : State) : Host.Outcome State Fault Refusal := s.takeEvent

/-- `s` with the instruction bits `w` of a row of `nbits` bits placed where `step` takes its next command: as a host write of that
32-bit word to CMD, with BUSY = 0 so that the engine accepts it (R90; DESIGN CHOICE, notes/assumptions/5.md). -/
def State.withFetchWord (s : State) (nbits w : Nat) : State := s.placeWord (BitVec.ofNat 32 (w % 2 ^ nbits))

end Sys2Proof.Machine
end

