-- ==== Sys2Proof/Machine/Script.lean ====
section
/-! DEFINITION. The notation of host scripts: the text of a command (30_encoding.md R101), the actions `WR`, `CMD` and `RD` (R103)
and the pseudo-instructions (R104), each expanded to the events it stands for. -/

namespace Sys2Proof.Machine

/-! ## Actions and pseudo-instructions -/

/-- `CMD c`: a write of the command's word to CMD, run to its completion (R103). -/
def cmdAction (i : Instr) : Event := .write 4 0 (encode i)

/-- `WR reg, v` (R103). -/
def wrAction (r : OperandReg) (v : Word) : Event := .write 4 r.offset v

/-- `RD reg`, the register by its offset (R103). -/
def rdAction (offset : Nat) : Event := .read 4 offset

/-- `RD RESULT` and `RD RESULT_HI`. -/
def rdResult : List Event := [rdAction 0x08, rdAction 0x0C]

/-- The registers a script names, with their offsets (R43, R103). -/
def registerNames : List (String × Nat) :=
  [("CMD", 0x00), ("STATUS", 0x04), ("RESULT", 0x08), ("RESULT_HI", 0x0C), ("FRAME_W", 0x10), ("FRAME_H", 0x14),
   ("SRC_BASE", 0x18), ("SRC_LEN", 0x1C), ("DST_BASE", 0x20), ("DST_LEN", 0x24), ("A0", 0x28), ("A1", 0x2C), ("A2", 0x30),
   ("A3", 0x34)]

/-- `FRAME w, h`. -/
def frameMacro (w h : Word) : List Event := [wrAction .frameW w, wrAction .frameH h]

/-- `SRC base, len`. -/
def srcMacro (base len : Word) : List Event := [wrAction .srcBase base, wrAction .srcLen len]

/-- `DST base, len`. -/
def dstMacro (base len : Word) : List Event := [wrAction .dstBase base, wrAction .dstLen len]

/-- The four region operands. -/
def regionMacro (a b c d : Word) : List Event := [wrAction .a0 a, wrAction .a1 b, wrAction .a2 c, wrAction .a3 d]

/-- `DECODE`. -/
def decodeMacro : List Event := [cmdAction .decf]

/-- `DECODE x, y, w, h`. -/
def decodeRegionMacro (x y w h : Word) : List Event := regionMacro x y w h ++ [cmdAction .decr]

/-- `DECODEDC bx, by, cx, cy`. -/
def decodeDcMacro (bx y cx cy : Word) : List Event := regionMacro bx y cx cy ++ [cmdAction .decdc]

/-- `SETQ base, n`. -/
def setqMacro (base : Word) (n : Nat) : List Event := srcMacro base (BitVec.ofNat 32 (Config.sourceValueBytes * n)) ++ [cmdAction (.qset n)]

/-- `GETQ base`. -/
def getqMacro (base : Word) : List Event := dstMacro base (BitVec.ofNat 32 (Config.readBackBytes * Config.qn)) ++ [cmdAction .qget]

/-- `SEQ`. -/
def seqMacro : List Event := cmdAction .seqx :: rdResult

/-! ## The text of a command (R101; DESIGN CHOICE, notes/assumptions/20.md) -/

/-- A command as text: its mnemonic, and its operand in decimal. -/
def commandText (i : Instr) : String :=
  match i.operand with
  | none => i.mnemonic
  | some n => i.mnemonic ++ " " ++ toString n

/-- The value of a digit in base 10. -/
def decimalDigit (c : Char) : Option Nat := if '0' ≤ c ∧ c ≤ '9' then some (c.toNat - '0'.toNat) else none

/-- The value of a digit in base 16. -/
def hexDigit (c : Char) : Option Nat :=
  if 'A' ≤ c ∧ c ≤ 'F' then some (c.toNat - 'A'.toNat + 10)
  else if 'a' ≤ c ∧ c ≤ 'f' then some (c.toNat - 'a'.toNat + 10)
  else decimalDigit c

/-- A run of digits after `acc`. -/
def readDigits (base : Nat) (digit : Char → Option Nat) : List Char → Nat → Option Nat
  | [], acc => some acc
  | c :: cs, acc =>
    match digit c with
    | some d => readDigits base digit cs (acc * base + d)
    | none => none

/-- An unsigned decimal or `0x` hexadecimal operand. -/
def readNumber : List Char → Option Nat
  | '0' :: 'x' :: c :: cs => readDigits 16 hexDigit (c :: cs) 0
  | [] => none
  | c :: cs => readDigits 10 decimalDigit (c :: cs) 0

/-- The value of a `WR` action: decimal, where a leading `-` gives the two's-complement word, or `0x` hexadecimal; `none` where it
is no such number or does not fit a register (R103). -/
def readWord : List Char → Option Word
  | '-' :: c :: cs =>
    match readDigits 10 decimalDigit (c :: cs) 0 with
    | some n => if n ≤ 2147483648 then some (BitVec.ofInt 32 (-n)) else none
    | none => none
  | cs =>
    match readNumber cs with
    | some n => if n < 4294967296 then some (BitVec.ofNat 32 n) else none
    | none => none

/-- The commands without operand, by mnemonic. -/
def plainCommands : List Instr := [.init, .qget, .lget, .decf, .decr, .decdc, .seqx]

/-- A command whose text is a mnemonic and, for INITQ, QSET and LSET, one operand after one space; `none` where the text spells no
command. -/
def readCommand (text : List Char) : Option Instr :=
  match text.dropWhile (fun c => c != ' ') with
  | [] => plainCommands.find? fun i => i.mnemonic.toList == text
  | _ :: digits =>
    match readNumber digits with
    | none => none
    | some n =>
      match [Instr.initq n, .qset n, .lset n].find? fun i => i.mnemonic.toList == text.takeWhile (fun c => c != ' ') with
      | none => none
      | some i => if i.wellFormed then some i else none

end Sys2Proof.Machine
end

