-- ==== Sys2Proof/Safety.lean ====
section
/-! DEFINITION. What claims about the machine are stated in: the invariant of its states, the good final state
(70_reset_and_hazards.md R273), the parts of the state a statement says are unchanged, and the spec's own readings of bytes,
regions and windows, written independently of the functions the meanings use. -/

namespace Sys2Proof.Machine

/-! ## The invariant -/

/-- The block work of a decode command; `none` for every other command. -/
def jobOf (i : Instr) (ops : OperandRegs) : Option Job :=
  match i with
  | .decf => some (decfJob ops)
  | .decr => some (decrJob ops)
  | .decdc => some (decdcJob ops)
  | .init => none
  | .initq _ => none
  | .qset _ => none
  | .qget => none
  | .lset _ => none
  | .lget => none
  | .seqx => none

/-- What is true of a command in flight: its sampled operands are still those of the registers (R29, R261); a table to commit is that
of an INITQ 64, or of a QSET 64 on a ready engine (R114, R116); and block work is that of the command's word, has passed the checks
of R110, and has its pending blocks among the covered ones (R187). -/
def InFlight.Inv (p : Profile) (s : State) (f : InFlight) : Prop :=
  f.ops = s.regs ∧
  match f.work with
  | .checks => True
  | .commit constructs _ => decode f.word = .ok (if constructs then .initq 64 else .qset 64) ∧ (constructs = false → s.cfg = .ready)
  | .blocks job pending =>
    (∃ i, decode f.word = .ok i ∧ jobOf i f.ops = some job) ∧ s.cfg = .ready ∧ job.rangeOk f.ops = true ∧ job.accessOk p f.ops = true ∧ pending.Sublist job.blocks

/-- The invariant of the machine: memory in canonical form inside the address space (R44); LANES in 1 to 32 once READY (R25); BUSY
exactly while a command is in flight, and never with DONE (R36); FAULT set whenever ERR is 4 or 5 (R38); a command in flight as
above. -/
structure State.Inv (p : Profile) (s : State) : Prop where
  memory : s.mem.wf = true
  lanes : s.cfg = .ready → 1 ≤ s.lanes.toNat ∧ s.lanes.toNat ≤ 32
  busy : s.busy = s.inflight.isSome
  notBoth : ¬(s.busy = true ∧ s.done = true)
  sticky : s.err.sticky = true → s.fault = true
  flight : ∀ f, s.inflight = some f → f.Inv p s

/-- The engine is idle: no command is in flight (R252). -/
def State.Idle (s : State) : Prop := s.busy = false ∧ s.inflight = none

/-- A command whose result goes to RESULT and RESULT_HI is in flight (R42, R263). -/
def State.ResultInFlight (s : State) : Prop :=
  ∃ f, s.inflight = some f ∧ (decode f.word = .ok .lget ∨ decode f.word = .ok .seqx)

/-- A good final state (R273). -/
def State.Good (s : State) : Prop := s.busy = false ∧ s.fault = false

/-! ## What a transition changes -/

/-- `t` is `s` after a completion with code `e`: STATUS holds the code, FAULT is set by codes 4 and 5, BUSY is 0, DONE is 1, and every
other piece of state is as in `s` (R228). -/
def CompletedWith (e : Err) (s t : State) : Prop :=
  t = { s with err := e, fault := s.fault || decide (e = .accessFault ∨ e = .illegalCommand), busy := false, done := true,
               inflight := none }

/-- `t` is `s` after a successful completion that wrote memory at most (R75). -/
def CompletedWithStores (s t : State) : Prop :=
  t = { s with mem := t.mem, err := .ok, busy := false, done := true, inflight := none }

/-- The environment's part of the state is unchanged: the script, the observations, the count of free values. -/
def SameHost (s t : State) : Prop := t.script = s.script ∧ t.observed = s.observed ∧ t.tick = s.tick

/-- The bytes outside `[a, a + n)` read in `t` as in `s`. -/
def MemorySameOutside (a n : Nat) (s t : State) : Prop := ∀ b, b < a ∨ a + n ≤ b → t.mem.read b = s.mem.read b

/-! ## Command words -/

/-- The words of opcode `op` spell the command `i` when `imm24` is zero and nothing otherwise (R91, R96). -/
def SpelledPlain (op : Nat) (i : Instr) : Prop :=
  ∀ w : Word, w.toNat / 16777216 = op →
    decode w = if w.toNat % 16777216 = 0 then .ok i else .error .reservedImmediate

/-- The words of opcode `op` spell the command `f n` with `n = imm24` (R91, R92). -/
def SpelledWith (op : Nat) (f : Nat → Instr) : Prop :=
  ∀ w : Word, w.toNat / 16777216 = op → decode w = .ok (f (w.toNat % 16777216))

/-! ## Table images -/

/-- The `s32` value `i` of the table source image, its four bytes little-endian (R60, R62). -/
def imageValue (s : State) (i : Nat) : Int :=
  let a := s.regs.srcBase.toNat + 4 * i
  (s.mem.read (a + 3) ++ s.mem.read (a + 2) ++ s.mem.read (a + 1) ++ s.mem.read a : BitVec 32).toInt

/-- What a source value is stored as (R111). -/
def storedValue (v : Int) : Int := if v < 0 then 0 else if v > 65535 then 65535 else v

/-- `n` bytes from the first byte of the window fit a window that does not wrap (R66, R67). -/
abbrev WindowHolds (base len : Word) (n : Nat) : Prop := n ≤ len.toNat ∧ base.toNat + len.toNat ≤ 4294967296

/-! ## Regions -/

/-- `valid_roi` (R150 to R154). -/
def Region.Valid (r : Region) (w h : Int) : Prop :=
  (r.x % 8 = 0 ∧ r.y % 8 = 0) ∧ (0 ≤ r.x ∧ 0 ≤ r.y) ∧ (r.x + r.width ≤ w ∧ r.y + r.height ≤ h) ∧ (0 < r.width ∧ 0 < r.height)

/-- Block `(bx, by)` is covered by the region (R164). -/
def Region.Covers (r : Region) (b : Block) : Prop :=
  r.x / 8 ≤ b.col ∧ (b.col : Int) ≤ (r.x + r.width - 1) / 8 ∧ r.y / 8 ≤ b.row ∧ (b.row : Int) ≤ (r.y + r.height - 1) / 8

/-- `valid_dc` (R167), with `NBX` and `NBY` as R158 and R161 give them. -/
def DcRegion.Valid (r : DcRegion) (w h : Int) : Prop :=
  1 ≤ r.cols ∧ 1 ≤ r.rows ∧ 0 ≤ r.col ∧ 0 ≤ r.row ∧ r.col + r.cols ≤ nbx w ∧ r.row + r.rows ≤ nby h

/-- Block `(bx, by)` is covered by the DC request (R168). -/
def DcRegion.Covers (r : DcRegion) (b : Block) : Prop :=
  r.col ≤ b.col ∧ (b.col : Int) < r.col + r.cols ∧ r.row ≤ b.row ∧ (b.row : Int) < r.row + r.rows

/-- `decode_access_ok` and `dc_access_ok` for the covered blocks and an image of `out` bytes: (a) every block inside a well-formed
source window, (b) the image inside a well-formed destination window, (c) no byte in common (R182, R205). -/
def AccessOk (p : Profile) (ops : OperandRegs) (covered : Block → Prop) (out : Nat) : Prop :=
  ops.srcBase.toNat + ops.srcLen.toNat ≤ 4294967296 ∧ WindowHolds ops.dstBase ops.dstLen out ∧
  ∀ b, covered b →
    p.blkOff b.col b.row (nbx ops.width) (nby ops.height) + p.blockBytes ≤ ops.srcLen.toNat ∧
    ∀ a, ¬((srcAddr p ops b ≤ a ∧ a < srcAddr p ops b + p.blockBytes) ∧
      (ops.dstBase.toNat ≤ a ∧ a < ops.dstBase.toNat + out))

/-- The command `i` answers `t`: under the profile `p`, and by `exec` itself when `p` is the sensor's own. -/
def Answers (p : Profile) (i : Instr) (s t : State) : Prop :=
  execWith p i s = .next t ∧ (p = Config.sensor → exec i s = .next t)

/-- What a decode of the pixel region `r` leaves: sample `(i, j)` of the region at `DST_BASE + i * width + j` is the full image at
`(y + i, x + j)`, nothing else is written, and nothing else changes but STATUS (R183). -/
def LeavesRegionImage (p : Profile) (r : Region) (s t : State) : Prop :=
  (∀ i j : Nat, (i : Int) < r.height → (j : Int) < r.width →
    t.mem.read (s.regs.dstBase.toNat + i * r.width.toNat + j) =
      fullSample p s.qtab s.regs s.mem (r.y.toNat + i) (r.x.toNat + j)) ∧
  MemorySameOutside s.regs.dstBase.toNat (r.height.toNat * r.width.toNat) s t ∧ CompletedWithStores s t

/-- What a DC decode of the request `r` leaves (R204). -/
def LeavesDcImage (p : Profile) (r : DcRegion) (s t : State) : Prop :=
  (∀ i j : Nat, (i : Int) < r.rows → (j : Int) < r.cols →
    t.mem.read (s.regs.dstBase.toNat + i * r.cols.toNat + j) =
      dcImageSample p s.qtab s.regs s.mem (r.row.toNat + i) (r.col.toNat + j)) ∧
  MemorySameOutside s.regs.dstBase.toNat (r.rows.toNat * r.cols.toNat) s t ∧ CompletedWithStores s t

/-! ## The lane level -/

/-- Block steps in the order of a schedule: which lane takes which block (R187). -/
def State.laneSteps (p : Profile) : List (Nat × Block) → State → Host.Outcome State Fault Refusal
  | [], s => .next s
  | (l, b) :: rest, s =>
    match s.laneStep p l b with
    | .next t => State.laneSteps p rest t
    | .fault f => .fault f
    | .refused r => .refused r

/-- A decode command at the lane level: acceptance, checks, the block steps of a schedule, completion (R187). -/
def State.laneRun (p : Profile) (w : Word) (schedule : List (Nat × Block)) (s : State) : Host.Outcome State Fault Refusal :=
  match (s.accept w).advance p with
  | .next t =>
    match t.laneSteps p schedule with
    | .next u => u.advance p
    | .fault f => .fault f
    | .refused r => .refused r
  | .fault f => .fault f
  | .refused r => .refused r

end Sys2Proof.Machine
end

