-- ==== Sys2Proof/Certificates/Slice0/Obligations.lean ====
section
/-! DEFINITION. The statements of this row, each a proposition about the machine that formalises rules of spec/. -/

open Sys2Proof Sys2Proof.Machine

/-! ## Encoding (30_encoding.md) -/

/-- R99: encoding is the inverse of decoding on legal commands. Every operand at every value `imm24` admits. -/
def Obligations.DecodeOfEncodeIsIdentity : Prop := ∀ i : Instr, i.WellFormed → decode (encode i) = .ok i

/-- R99: a word that spells a command is the encoding of that command, and the command is well formed. -/
def Obligations.EncodeOfDecodeIsIdentity : Prop := ∀ (w : Word) (i : Instr), decode w = .ok i → encode i = w ∧ i.WellFormed

/-- R95: a word whose `op` is not one of the ten, written to CMD, completes with IllegalCommand and FAULT and does nothing else, in
both states of CFG; the all-zero and the all-ones word are such words. -/
def Obligations.UndefinedOpcodeCompletesIllegal : Prop :=
  (∀ (s : State) (w : Word), s.Idle →
    w.toNat / 16777216 ∉ [0x01, 0x02, 0x10, 0x11, 0x12, 0x13, 0x20, 0x21, 0x22, 0x23] →
      ∃ t, s.perform (.write 4 0 w) = .next t ∧ CompletedWith .illegalCommand s t) ∧
  (∀ w : Word, w = 0x00000000 ∨ w = 0xFFFFFFFF →
    w.toNat / 16777216 ∉ [0x01, 0x02, 0x10, 0x11, 0x12, 0x13, 0x20, 0x21, 0x22, 0x23])

/-- R96: a word of INIT, QGET, LGET, DECF, DECR, DECDC or SEQX with `imm24` not zero completes with IllegalCommand and FAULT and does
nothing else. -/
def Obligations.ReservedImmediateCompletesIllegal : Prop :=
  ∀ (s : State) (w : Word), s.Idle →
    w.toNat / 16777216 ∈ [0x01, 0x11, 0x13, 0x20, 0x21, 0x22, 0x23] → w.toNat % 16777216 ≠ 0 →
      ∃ t, s.perform (.write 4 0 w) = .next t ∧ CompletedWith .illegalCommand s t

/-- R100: each row selects exactly the words of its command, its mask is 0xFF000000 where the command has an operand and 0xFFFFFFFF
where it has none, no word selects two rows, and a word that selects none is illegal. -/
def Obligations.OpcodeRowsSelectTheirCommands : Prop :=
  (∀ r ∈ opcodeTable, ∀ w : Word, r.selects w = true ↔ ∃ i, decode w = .ok i ∧ i.mnemonic = r.mnemonic) ∧
  (∀ r ∈ opcodeTable, r.mask = if r.mnemonic ∈ ["INITQ", "QSET", "LSET"] then 0xFF000000 else 0xFFFFFFFF) ∧
  (∀ r ∈ opcodeTable, ∀ r' ∈ opcodeTable, ∀ w : Word, r.selects w = true → r'.selects w = true → r = r') ∧
  (∀ w : Word, (∀ r ∈ opcodeTable, r.selects w = false) → ∃ e, decode w = .error e)

/-- R102: the encoding examples of the spec, read and written. -/
def Obligations.EncodingExamplesOfTheSpec : Prop :=
  ∀ e ∈ [(Instr.init, (0x01000000 : Word)), (.initq 64, 0x02000040), (.initq 10, 0x0200000A), (.qset 64, 0x10000040),
      (.qset 80, 0x10000050), (.qget, 0x11000000), (.lset 1, 0x12000001), (.lset 32, 0x12000020), (.lset 33, 0x12000021),
      (.lget, 0x13000000), (.decf, 0x20000000), (.decr, 0x21000000), (.decdc, 0x22000000), (.seqx, 0x23000000)],
    encode e.1 = e.2 ∧ decode e.2 = .ok e.1

/-! ## Steps and the host interface -/

/-- R90, R103: a step whose next event is a host write of a word to CMD, with BUSY = 0, runs exactly the command the word spells, on
the state with that event taken off the script; a word that spells none completes with IllegalCommand. The same holds of the word
that `withFetchWord` places. -/
def Obligations.StepRunsTheCommandWrittenToCmd : Prop :=
  (∀ (s : State) (w : Word) (rest : List Event), s.script = .write 4 0 w :: rest → s.busy = false →
    (∀ i, decode w = .ok i → step s = exec i { s with script := rest }) ∧
    (∀ e, decode w = .error e → step s = .next (State.raise .illegalCommand { s with script := rest }))) ∧
  (∀ (s : State) (w : Word) (i : Instr), decode w = .ok i →
    step (s.withFetchWord 32 w.toNat) = exec i { s with busy := false, inflight := none })

/-- R242, R252: with nothing scripted an idle engine holds its state. -/
def Obligations.IdleEngineHoldsItsState : Prop := ∀ s : State, s.script = [] → s.inflight = none → step s = .next s

/-- R261: while BUSY = 1 a host write to CMD, waited for or not, or to any operand register has no meaning. -/
def Obligations.BusyRegisterWriteIsRefused : Prop :=
  ∀ s : State, s.busy = true →
    (∀ w, s.perform (.write 4 0 w) = .refused .busyRegisterWrite ∧ s.perform (.issue w) = .refused .busyRegisterWrite) ∧
    (∀ (r : OperandReg) (v : Word), s.perform (.write 4 r.offset v) = .refused .busyRegisterWrite)

/-- R264, R272: while a command is in flight a host store that touches a byte of its source or destination window has no meaning;
a store that touches none is performed. -/
def Obligations.BusyWindowStoreIsRefused : Prop :=
  ∀ (s : State) (f : InFlight) (a : Word) (data : List Byte), s.inflight = some f → a.toNat + data.length ≤ 4294967296 →
    ((∃ k, k < data.length ∧ (f.ops.src.covers (a.toNat + k) = true ∨ f.ops.dst.covers (a.toNat + k) = true)) →
      s.perform (.store a data) = .refused .busyWindowWrite) ∧
    ((∀ k, k < data.length → f.ops.src.covers (a.toNat + k) = false ∧ f.ops.dst.covers (a.toNat + k) = false) →
      s.perform (.store a data) = .next { s with mem := s.mem.writeCells (cellsAt a.toNat data) })

/-- R28, R32: an operand register written while BUSY = 0 reads back as written, and no other register of the block changes. -/
def Obligations.OperandRegistersReadBackUnaliased : Prop :=
  ∀ (s : State) (r : OperandReg) (v : Word), s.busy = false →
    ∃ t, s.perform (.write 4 r.offset v) = .next t ∧ t.portValue r.offset = v ∧
      (∀ o, o ≠ r.offset → t.portValue o = s.portValue o) ∧ t = { s with regs := t.regs }

/-- R35, R41, R42, R43: a write to STATUS, RESULT, RESULT_HI or a reserved offset is ignored, and CMD and the reserved offsets read
zero. -/
def Obligations.ReadOnlyOffsetsIgnoreWrites : Prop :=
  (∀ (s : State) (o : Nat) (v : Word), o % 4 = 0 → (o = 0x04 ∨ o = 0x08 ∨ o = 0x0C ∨ (0x38 ≤ o ∧ o ≤ 0xFC)) →
    s.perform (.write 4 o v) = .next s) ∧
  (∀ (s : State) (o : Nat), (o = 0 ∨ 0x38 ≤ o) → s.portValue o = 0)

/-- R76: a register read gives the host the register's value and changes nothing of the engine, but for a read of RESULT or RESULT_HI
for the result of a command in flight (R263; notes/assumptions/10.md); no register write but one to CMD changes anything but the
operand registers. -/
def Obligations.RegisterReadsHaveNoSideEffect : Prop :=
  (∀ (s : State) (o : Nat), o % 4 = 0 → o < 256 → ¬((o = 0x08 ∨ o = 0x0C) ∧ s.ResultInFlight) →
    s.perform (.read 4 o) = .next { s with observed := .register o (s.portValue o) :: s.observed }) ∧
  (∀ (s : State) (o : Nat) (v : Word) (t : State), o ≠ 0 → s.perform (.write 4 o v) = .next t → t = { s with regs := t.regs })

/-- R42, R243, R263: a read of RESULT or RESULT_HI while LGET or SEQX is in flight is a hazard and has no meaning; at any other time, a
command in flight or not, it gives the register (the reading of R263 is that of notes/assumptions/10.md). -/
def Obligations.ResultReadsGiveTheRegistersUnlessEarly : Prop :=
  ∀ s : State,
    (s.ResultInFlight →
      s.perform (.read 4 0x08) = .refused .earlyResultRead ∧ s.perform (.read 4 0x0C) = .refused .earlyResultRead) ∧
    (¬s.ResultInFlight →
      s.perform (.read 4 0x08) = .next { s with observed := .register 0x08 s.result :: s.observed } ∧
      s.perform (.read 4 0x0C) = .next { s with observed := .register 0x0C s.resultHi :: s.observed })

/-- R72: a register-port access that is not 32 bits wide or not aligned to 4 bytes has no meaning. -/
def Obligations.MisshapenPortAccessIsRefused : Prop :=
  ∀ (s : State) (bytes o : Nat) (v : Word), bytes ≠ 4 ∨ o % 4 ≠ 0 →
    s.perform (.write bytes o v) = .refused .badPortAccess ∧ s.perform (.read bytes o) = .refused .badPortAccess

/-- R35, R37: the layout of STATUS, its value at reset, and that host writes to it are ignored; ERR is never above 5. -/
def Obligations.StatusRegisterLayout : Prop :=
  (∀ s : State,
    s.status.getLsbD 0 = s.busy ∧ s.status.getLsbD 1 = s.done ∧ s.status.getLsbD 2 = decide (s.cfg = .ready) ∧
    s.status.getLsbD 3 = s.fault ∧
    (s.status.extractLsb' 4 4).toNat =
      (match s.err with
      | .ok => 0 | .configError => 1 | .rangeError => 2 | .stateError => 3 | .accessFault => 4 | .illegalCommand => 5) ∧
    (∀ k, 8 ≤ k → s.status.getLsbD k = false) ∧
    (∀ v, s.perform (.write 4 0x04 v) = .next s)) ∧
  State.reset.status = 0

/-- R60, R61, R103: bytes an idle host stores stand at their addresses, nothing else of memory changes, and a load gives back what
memory holds. -/
def Obligations.HostStoreAndLoadAgree : Prop :=
  ∀ (s : State) (a : Word) (data : List Byte), s.mem.wf = true → s.inflight = none → a.toNat + data.length ≤ 4294967296 →
    ∃ t u, s.perform (.store a data) = .next t ∧ t = { s with mem := t.mem } ∧
      MemorySameOutside a.toNat data.length s t ∧
      t.perform (.dump a data.length) = .next u ∧ u.observed = .memory a data :: s.observed ∧ u.mem = t.mem

/-- R50, R250: the reset event leaves CFG, STATUS, RESULT, RESULT_HI and every operand register at the values the spec states, and
memory untouched; so does the state after reset itself. -/
def Obligations.ResetLeavesTheStatedState : Prop :=
  (∀ s : State, s.inflight = none →
    ∃ t, s.perform .reset = .next t ∧ t.cfg = .unconfigured ∧ t.status = 0 ∧ t.result = 0 ∧ t.resultHi = 0 ∧
      (∀ r : OperandReg, t.regs.get r = 0) ∧ t.mem = s.mem ∧ t.inflight = none) ∧
  (State.reset.cfg = .unconfigured ∧ State.reset.status = 0 ∧ State.reset.result = 0 ∧ State.reset.resultHi = 0 ∧
    ∀ r : OperandReg, State.reset.regs.get r = 0)

/-- R251: a reset while a command is in flight gives the register state of reset and abandons the command; only bytes of the
destination window it sampled can have changed. -/
def Obligations.AbandonedCommandTouchesOnlyItsDestination : Prop :=
  ∀ (s : State) (f : InFlight), s.inflight = some f →
    ∃ t, s.perform .reset = .next t ∧ t.inflight = none ∧ t.cfg = .unconfigured ∧ t.status = 0 ∧ t.result = 0 ∧
      t.resultHi = 0 ∧ (∀ r : OperandReg, t.regs.get r = 0) ∧
      ∀ a, f.ops.dst.covers a = false → t.mem.read a = s.mem.read a

/-! ## The table commands (40_quant_table.md) -/

/-- R111: what the clamp stores, at every value. -/
def Obligations.ClampSaturates : Prop :=
  ∀ v : Int, ((clamp16 v).toNat : Int) = storedValue v ∧ (v < 0 ∨ 65535 < v → ((clamp16 v).toNat : Int) ≠ v)

/-- R112, R113: INIT constructs with the default table, in either state of CFG, and cannot fail. -/
def Obligations.InitConstructsWithTheDefaultTable : Prop :=
  SpelledPlain 0x01 .init ∧
  ∀ s : State, ∃ t, exec .init s = .next t ∧
    (∀ i : Fin 64, t.qtab[i] = Config.sensor.defaultQtab i) ∧ t.lanes.toNat = Config.sensor.lanesReset ∧ t.cfg = .ready ∧
    t.status = (if s.fault then 0x0E else 0x06) ∧
    t.regs = s.regs ∧ t.result = s.result ∧ t.resultHi = s.resultHi ∧ t.mem = s.mem ∧ SameHost s t

/-- R114: INITQ n reports a wrong length, then a source window that does not hold 256 bytes, changing STATUS only; otherwise it
constructs with the clamped image. -/
def Obligations.InitqConstructsWithTheImage : Prop :=
  SpelledWith 0x02 .initq ∧
  ∀ (n : Nat) (s : State),
    (n ≠ 64 → ∃ t, exec (.initq n) s = .next t ∧ CompletedWith .configError s t) ∧
    (n = 64 → ¬WindowHolds s.regs.srcBase s.regs.srcLen 256 →
      ∃ t, exec (.initq n) s = .next t ∧ CompletedWith .accessFault s t) ∧
    (n = 64 → WindowHolds s.regs.srcBase s.regs.srcLen 256 →
      ∃ t, exec (.initq n) s = .next t ∧
        (∀ i : Fin 64, (t.qtab[i].toNat : Int) = storedValue (imageValue s i)) ∧
        t.lanes.toNat = Config.sensor.lanesReset ∧ t.cfg = .ready ∧ t.status = (if s.fault then 0x0E else 0x06) ∧
        t.regs = s.regs ∧ t.result = s.result ∧ t.resultHi = s.resultHi ∧ t.mem = s.mem ∧ SameHost s t)

/-- R116: QSET n reports StateError, ConfigError and AccessFault in this order, changing STATUS only; otherwise it replaces the table
by the clamped image and changes nothing else but STATUS. -/
def Obligations.QsetReplacesTheTable : Prop :=
  SpelledWith 0x10 .qset ∧
  ∀ (n : Nat) (s : State),
    (s.cfg = .unconfigured → ∃ t, exec (.qset n) s = .next t ∧ CompletedWith .stateError s t) ∧
    (s.cfg = .ready → n ≠ 64 → ∃ t, exec (.qset n) s = .next t ∧ CompletedWith .configError s t) ∧
    (s.cfg = .ready → n = 64 → ¬WindowHolds s.regs.srcBase s.regs.srcLen 256 →
      ∃ t, exec (.qset n) s = .next t ∧ CompletedWith .accessFault s t) ∧
    (s.cfg = .ready → n = 64 → WindowHolds s.regs.srcBase s.regs.srcLen 256 →
      ∃ t, exec (.qset n) s = .next t ∧
        (∀ i : Fin 64, (t.qtab[i].toNat : Int) = storedValue (imageValue s i)) ∧
        t = { s with qtab := t.qtab, err := .ok, busy := false, done := true, inflight := none })

/-- R117: a QSET or INITQ that raises any error leaves QTAB exactly as it was. -/
def Obligations.FailedTableCommandKeepsTheTable : Prop :=
  ∀ (n : Nat) (s t : State), exec (.qset n) s = .next t ∨ exec (.initq n) s = .next t → t.err ≠ .ok → t.qtab = s.qtab

/-- R118: at the lane level a QSET or INITQ first computes all 64 clamped values, with the old table still in force, and then commits
them in one transition; the two transitions together are the command. -/
def Obligations.TableCommitIsOneTransition : Prop :=
  ∀ (p : Profile) (s : State) (w : Word) (i : Instr), s.Idle → decode w = .ok i → (i = .qset 64 ∨ i = .initq 64) →
    (commandOf p i).error s.cfg s.regs = none →
      ∃ t, (s.accept w).advance p = .next t ∧ t.qtab = s.qtab ∧ t.lanes = s.lanes ∧ t.cfg = s.cfg ∧ t.busy = true ∧
        t.advance p = execWith p i s

/-- R120: QGET reports StateError and AccessFault in this order, changing STATUS only; otherwise it writes the 64 entries
little-endian from `DST_BASE` on, and nothing else. -/
def Obligations.QgetWritesTheTable : Prop :=
  SpelledPlain 0x11 .qget ∧
  ∀ s : State,
    (s.cfg = .unconfigured → ∃ t, exec .qget s = .next t ∧ CompletedWith .stateError s t) ∧
    (s.cfg = .ready → ¬WindowHolds s.regs.dstBase s.regs.dstLen 128 →
      ∃ t, exec .qget s = .next t ∧ CompletedWith .accessFault s t) ∧
    (s.mem.wf = true → s.cfg = .ready → WindowHolds s.regs.dstBase s.regs.dstLen 128 →
      ∃ t, exec .qget s = .next t ∧
        (∀ i : Fin 64,
          t.mem.read (s.regs.dstBase.toNat + 2 * i.val + 1) ++ t.mem.read (s.regs.dstBase.toNat + 2 * i.val) = s.qtab[i]) ∧
        MemorySameOutside s.regs.dstBase.toNat 128 s t ∧ CompletedWithStores s t)

/-- R119: a table set and then read back is the clamped table, and differs from the source wherever the source is out of range. The
host may write the operand registers between the two commands. -/
def Obligations.SetThenGetReturnsTheClampedTable : Prop :=
  ∀ (s t u : State) (r : OperandRegs), s.mem.wf = true → exec (.qset 64) s = .next t → t.err = .ok →
    exec .qget { t with regs := r } = .next u → u.err = .ok →
      ∀ i : Fin 64,
        ((u.mem.read (r.dstBase.toNat + 2 * i.val + 1) ++ u.mem.read (r.dstBase.toNat + 2 * i.val) : BitVec 16).toNat : Int) =
          storedValue (imageValue s i) ∧
        (imageValue s i < 0 ∨ 65535 < imageValue s i → storedValue (imageValue s i) ≠ imageValue s i)

/-! ## The thread count (43_decode.md) -/

/-- R176, R177: LSET n sets the thread count when `n` is 1 to 32 and changes nothing else but STATUS; otherwise it reports StateError
or ConfigError and leaves LANES unchanged. -/
def Obligations.LsetSetsTheThreadCount : Prop :=
  SpelledWith 0x12 .lset ∧
  ∀ (n : Nat) (s : State),
    (s.cfg = .unconfigured → ∃ t, exec (.lset n) s = .next t ∧ CompletedWith .stateError s t) ∧
    (s.cfg = .ready → n < 1 ∨ 32 < n → ∃ t, exec (.lset n) s = .next t ∧ CompletedWith .configError s t) ∧
    (s.cfg = .ready → 1 ≤ n → n ≤ 32 →
      ∃ t, exec (.lset n) s = .next t ∧ t.lanes.toNat = n ∧
        t = { s with lanes := t.lanes, err := .ok, busy := false, done := true, inflight := none })

/-- R178: LGET puts the zero-extended thread count into RESULT and zero into RESULT_HI, and changes nothing else but STATUS. -/
def Obligations.LgetReadsTheThreadCount : Prop :=
  SpelledPlain 0x13 .lget ∧
  ∀ s : State,
    (s.cfg = .unconfigured → ∃ t, exec .lget s = .next t ∧ CompletedWith .stateError s t) ∧
    (s.cfg = .ready →
      ∃ t, exec .lget s = .next t ∧ t.result.toNat = s.lanes.toNat ∧ t.resultHi = 0 ∧
        t = { s with result := t.result, resultHi := t.resultHi, err := .ok, busy := false, done := true, inflight := none })

/-! ## The block kernel (41_block_kernel.md) -/

/-- R132, R134: the dequantizer multiplies position by position, exactly: the product never leaves the range the spec gives. -/
def Obligations.DequantizerIsExact : Prop :=
  ∀ (lev : Fin 64 → Level) (q : Vector Entry 64) (i : Fin 64),
    (deq lev q i).toInt = (lev i).toInt * (q[i].toNat : Int) ∧
    -2147450880 ≤ (deq lev q i).toInt ∧ (deq lev q i).toInt ≤ 2147385345

/-! ## Geometry (42_range_map.md) -/

/-- R157: what a valid region implies, and that the sums of the validator stay in 33 bits. -/
def Obligations.ValidRegionLiesInTheFrame : Prop :=
  (∀ (r : Region) (w h : Int), r.valid w h = true →
    (0 ≤ r.x ∧ r.x < w) ∧ (0 ≤ r.y ∧ r.y < h) ∧ (1 ≤ r.width ∧ r.width ≤ w) ∧ (1 ≤ r.height ∧ r.height ≤ h) ∧ 1 ≤ w ∧ 1 ≤ h ∧
    r.x + r.width - 1 ≤ w - 1 ∧ r.y + r.height - 1 ≤ h - 1) ∧
  (∀ ops : OperandRegs,
    (-4294967296 ≤ ops.region.x + ops.region.width ∧ ops.region.x + ops.region.width ≤ 4294967294) ∧
    (-4294967296 ≤ ops.region.y + ops.region.height ∧ ops.region.y + ops.region.height ≤ 4294967294))

/-- R158, R159, R161: the block counts; the rounding of the line bytes never adds a block column. -/
def Obligations.GridIsTheRoundedUpFrame : Prop :=
  ∀ w : Int,
    (1 ≤ w → (nbx w : Int) = (w + 7) / 8 ∧ (nby w : Int) = (w + 7) / 8 ∧ w ≤ lineBytes w ∧ lineBytes w < w + 4 ∧
      lineBytes w % 4 = 0) ∧
    (w ≤ 0 → nbx w = 0 ∧ nby w = 0)

/-- R164: the blocks a valid region covers are those between its corners, at least one, all in the grid; the full region covers the
whole grid. -/
def Obligations.CoveredBlocksLieInTheGrid : Prop :=
  (∀ (r : Region) (w h : Int), r.valid w h = true →
    (∀ b, b ∈ r.blocks ↔ r.Covers b) ∧ r.blocks ≠ [] ∧ ∀ b ∈ r.blocks, b.col < nbx w ∧ b.row < nby h) ∧
  (∀ (w h : Int) (b : Block), 1 ≤ w → 1 ≤ h →
    (b ∈ (Region.mk 0 0 w h).blocks ↔ b.col < nbx w ∧ b.row < nby h))

/-- R167, R168: what a valid DC request implies; its blocks are all in the grid. -/
def Obligations.ValidDcRequestLiesInTheGrid : Prop :=
  ∀ (r : DcRegion) (w h : Int), r.valid w h = true →
    1 ≤ w ∧ 1 ≤ h ∧
    ¬(r.cols = 0 ∨ r.rows = 0 ∨ r.cols > nbx w ∨ r.rows > nby h) ∧
    ¬(r.cols < 0 ∨ r.rows < 0 ∨ r.col < 0 ∨ r.row < 0 ∨ r.col + r.cols > nbx w ∨ r.row + r.rows > nby h) ∧
    (∀ b, b ∈ r.blocks ↔ r.Covers b) ∧ ∀ b ∈ r.blocks, b.col < nbx w ∧ b.row < nby h

/-- R202: the DC request the host makes for a valid pixel region is valid and covers exactly the blocks the region covers. -/
def Obligations.DcRequestCoversTheRegion : Prop :=
  ∀ (r : Region) (w h : Int), r.valid w h = true →
    r.dcRequest.valid w h = true ∧ ∀ b, b ∈ r.dcRequest.blocks ↔ b ∈ r.blocks

/-! ## Decoding (43_decode.md, 44_dc_seq.md) -/

/-- R181, R183: a DECR that passes its checks writes the cropped full image, densely from `DST_BASE`, and nothing else. -/
def Obligations.DecrWritesTheRegionImage : Prop :=
  SpelledPlain 0x21 .decr ∧
  ∀ (p : Profile) (s : State), s.mem.wf = true → s.cfg = .ready → s.regs.region.Valid s.regs.width s.regs.height →
    AccessOk p s.regs s.regs.region.Covers (s.regs.region.height.toNat * s.regs.region.width.toNat) →
      ∃ t, Answers p .decr s t ∧ LeavesRegionImage p s.regs.region s t

/-- R155, R179, R180: a DECF that passes its checks writes the full image, whatever A0 to A3 hold; the only range check that is left
is that the declared dimensions are positive. -/
def Obligations.DecfWritesTheFullImage : Prop :=
  SpelledPlain 0x20 .decf ∧
  ∀ (p : Profile) (s : State), s.mem.wf = true → s.cfg = .ready → 0 < s.regs.width → 0 < s.regs.height →
    AccessOk p s.regs (fun b => b.col < nbx s.regs.width ∧ b.row < nby s.regs.height)
      (s.regs.height.toNat * s.regs.width.toNat) →
      ∃ t, Answers p .decf s t ∧ LeavesRegionImage p ⟨0, 0, s.regs.width, s.regs.height⟩ s t

/-- R203, R204, R205: a DECDC that passes its checks writes one sample per covered block, densely from `DST_BASE`, and nothing else. -/
def Obligations.DecdcWritesTheDcImage : Prop :=
  SpelledPlain 0x22 .decdc ∧
  ∀ (p : Profile) (s : State), s.mem.wf = true → s.cfg = .ready → s.regs.dcRegion.Valid s.regs.width s.regs.height →
    AccessOk p s.regs s.regs.dcRegion.Covers (s.regs.dcRegion.rows.toNat * s.regs.dcRegion.cols.toNat) →
      ∃ t, Answers p .decdc s t ∧ LeavesDcImage p s.regs.dcRegion s t

/-- R222, R223, R224: a decode command that is not constructed for, whose geometry is invalid, or whose bytes do not lie as they must,
reports StateError, RangeError or AccessFault, in this order, and changes STATUS only. -/
def Obligations.DecodeErrorsChangeStatusOnly : Prop :=
  ∀ s : State,
    (s.cfg = .unconfigured → ∀ i ∈ [Instr.decf, .decr, .decdc], ∃ t, exec i s = .next t ∧ CompletedWith .stateError s t) ∧
    (s.cfg = .ready → ¬(0 < s.regs.width ∧ 0 < s.regs.height) →
      ∃ t, exec .decf s = .next t ∧ CompletedWith .rangeError s t) ∧
    (s.cfg = .ready → ¬s.regs.region.Valid s.regs.width s.regs.height →
      ∃ t, exec .decr s = .next t ∧ CompletedWith .rangeError s t) ∧
    (s.cfg = .ready → ¬s.regs.dcRegion.Valid s.regs.width s.regs.height →
      ∃ t, exec .decdc s = .next t ∧ CompletedWith .rangeError s t) ∧
    (s.cfg = .ready → 0 < s.regs.width → 0 < s.regs.height →
      ¬AccessOk Config.sensor s.regs (fun b => b.col < nbx s.regs.width ∧ b.row < nby s.regs.height)
        (s.regs.height.toNat * s.regs.width.toNat) →
      ∃ t, exec .decf s = .next t ∧ CompletedWith .accessFault s t) ∧
    (s.cfg = .ready → s.regs.region.Valid s.regs.width s.regs.height →
      ¬AccessOk Config.sensor s.regs s.regs.region.Covers (s.regs.region.height.toNat * s.regs.region.width.toNat) →
      ∃ t, exec .decr s = .next t ∧ CompletedWith .accessFault s t) ∧
    (s.cfg = .ready → s.regs.dcRegion.Valid s.regs.width s.regs.height →
      ¬AccessOk Config.sensor s.regs s.regs.dcRegion.Covers (s.regs.dcRegion.rows.toNat * s.regs.dcRegion.cols.toNat) →
      ∃ t, exec .decdc s = .next t ∧ CompletedWith .accessFault s t)

/-- R185: on the same frame, table and payload, the image a valid DECR writes is the sub-rectangle of the image DECF writes. The two
commands may write to different destination windows. -/
def Obligations.RegionDecodeIsACropOfTheFullDecode : Prop :=
  ∀ (p : Profile) (s t u : State) (r : OperandRegs), s.mem.wf = true →
    r.frameW = s.regs.frameW → r.frameH = s.regs.frameH → r.srcBase = s.regs.srcBase → r.srcLen = s.regs.srcLen →
    execWith p .decf s = .next t → t.err = .ok → execWith p .decr { s with regs := r } = .next u → u.err = .ok →
      ∀ i j : Nat, (i : Int) < r.region.height → (j : Int) < r.region.width →
        u.mem.read (r.dstBase.toNat + i * r.region.width.toNat + j) =
          t.mem.read (s.regs.dstBase.toNat + (r.region.y.toNat + i) * s.regs.width.toNat + (r.region.x.toNat + j))

/-- R186: DECR of the explicit full region is DECF. -/
def Obligations.ExplicitFullRegionIsTheFullDecode : Prop :=
  ∀ s : State, s.regs.a0 = 0 → s.regs.a1 = 0 → s.regs.a2 = s.regs.frameW → s.regs.a3 = s.regs.frameH →
    exec .decr s = exec .decf s

/-- R188: the thread count changes nothing of a decode: the same command at any other thread count leaves the same memory, STATUS,
RESULT and RESULT_HI. -/
def Obligations.ThreadCountDoesNotAffectDecodes : Prop :=
  ∀ (i : Instr) (s t : State) (l : BitVec 6), i = .decf ∨ i = .decr ∨ i = .decdc → exec i s = .next t →
    exec i { s with lanes := l } = .next { t with lanes := l }

/-- R187, R188: at the lane level, every schedule that gives each covered block to some lane below LANES, in any order, ends in the
very state the command leaves at the atomic level. -/
def Obligations.EveryScheduleGivesTheAtomicResult : Prop :=
  ∀ (p : Profile) (s : State) (w : Word) (i : Instr) (job : Job) (schedule : List (Nat × Block)),
    s.Idle → s.mem.wf = true → decode w = .ok i → jobOf i s.regs = some job →
    (commandOf p i).error s.cfg s.regs = none →
    (schedule.map Prod.snd).Perm job.blocks → (∀ e ∈ schedule, e.1 < s.lanes.toNat) →
      s.laneRun p w schedule = execWith p i s

/-- R6, R110, R184: at the lane level a word that spells no command, a command whose checks fail, and a command that leaves neither
block work nor a table to commit (INIT, QGET, LSET, LGET, SEQX; notes/assumptions/9.md) end in the first engine step after
acceptance, in the very state the atomic level gives. -/
def Obligations.CommandsWithoutWorkEndInTheirChecks : Prop :=
  ∀ (p : Profile) (s : State) (w : Word), s.Idle →
    (∀ e, decode w = .error e → (s.accept w).advance p = .next (State.raise .illegalCommand s)) ∧
    (∀ i, decode w = .ok i →
      (∃ e, (commandOf p i).error s.cfg s.regs = some e) ∨
        (jobOf i s.regs = none ∧ (∀ n, i ≠ .initq n) ∧ ∀ n, i ≠ .qset n) →
      (s.accept w).advance p = execWith p i s)

/-- R271: a command in flight that nothing interrupts completes after finitely many steps. -/
def Obligations.CommandsInFlightComplete : Prop :=
  ∀ s : State, s.Inv Config.sensor → s.script = [] → s.busy = true →
    ∃ k t, Host.Core.run Sys2Proof.core k s = .next t ∧ t.busy = false ∧ t.done = true

/-- R206: DECDC reads entry 0 of the table and no other. -/
def Obligations.DecdcReadsOnlyEntryZero : Prop :=
  ∀ (s t : State) (q : Vector Entry 64), q[0] = s.qtab[0] → exec .decdc s = .next t →
    exec .decdc { s with qtab := q } = .next { t with qtab := q }

/-- R211, R214: SEQX reports StateError and AccessFault in this order, changing STATUS only; otherwise RESULT_HI:RESULT is the
little-endian unsigned field, whatever W and H are, and nothing else changes but STATUS. -/
def Obligations.SeqxReadsTheSequenceField : Prop :=
  SpelledPlain 0x23 .seqx ∧
  ∀ (p : Profile) (s : State),
    (s.cfg = .unconfigured → ∃ t, Answers p .seqx s t ∧ CompletedWith .stateError s t) ∧
    (s.cfg = .ready → ¬WindowHolds s.regs.srcBase s.regs.srcLen (p.seqOffset s.regs.frameW s.regs.frameH + p.seqBytes) →
      ∃ t, Answers p .seqx s t ∧ CompletedWith .accessFault s t) ∧
    (s.cfg = .ready → WindowHolds s.regs.srcBase s.regs.srcLen (p.seqOffset s.regs.frameW s.regs.frameH + p.seqBytes) →
      ∃ t, Answers p .seqx s t ∧
        (t.resultHi ++ t.result).toNat =
          ∑ k ∈ Finset.range p.seqBytes,
            (s.mem.read (s.regs.srcBase.toNat + p.seqOffset s.regs.frameW s.regs.frameH + k)).toNat * 256 ^ k ∧
        t = { s with result := t.result, resultHi := t.resultHi, err := .ok, busy := false, done := true, inflight := none })

/-- R215: no table and no thread count changes what SEQX gives. -/
def Obligations.SeqxIgnoresTableAndThreadCount : Prop :=
  ∀ (s t : State) (q : Vector Entry 64) (l : BitVec 6), exec .seqx s = .next t →
    exec .seqx { s with qtab := q, lanes := l } = .next { t with qtab := q, lanes := l }

/-! ## Errors (60_exceptions.md) -/

/-- R223: every command but INIT and INITQ, issued before construction, reports StateError and changes STATUS only. -/
def Obligations.CommandsBeforeConstructionFail : Prop :=
  ∀ (i : Instr) (s : State), s.cfg = .unconfigured → i ≠ .init → (∀ n, i ≠ .initq n) →
    ∃ t, exec i s = .next t ∧ CompletedWith .stateError s t

/-- R228: a command that raises an error changes STATUS and nothing else; so does a word that spells no command. -/
def Obligations.ErrorsChangeStatusOnly : Prop :=
  (∀ (i : Instr) (s t : State), exec i s = .next t → t.err ≠ .ok → CompletedWith t.err s t) ∧
  (∀ (s : State) (w : Word) (e : DecodeError), s.Idle → decode w = .error e →
    ∃ t, s.perform (.write 4 0 w) = .next t ∧ CompletedWith .illegalCommand s t)

/-- R244: which command can raise which error. -/
def Obligations.CommandsRaiseOnlyTheirErrors : Prop :=
  ∀ (i : Instr) (s t : State), exec i s = .next t →
    t.err ∈ (match i with
      | .init => [Err.ok]
      | .initq _ => [.ok, .configError, .accessFault]
      | .qset _ => [.ok, .stateError, .configError, .accessFault]
      | .qget => [.ok, .stateError, .accessFault]
      | .lset _ => [.ok, .stateError, .configError]
      | .lget => [.ok, .stateError]
      | .decf => [.ok, .stateError, .rangeError, .accessFault]
      | .decr => [.ok, .stateError, .rangeError, .accessFault]
      | .decdc => [.ok, .stateError, .rangeError, .accessFault]
      | .seqx => [.ok, .stateError, .accessFault])

/-- R38: whatever happens next, FAULT once set stays set until a reset; a command sets it exactly when it reports code 4; and a word
that spells no command, which reports code 5, sets it. -/
def Obligations.FaultStaysSetUntilReset : Prop :=
  (∀ s t : State, step s = .next t → s.fault = true → t.fault = true ∨ ∃ rest, s.script = .reset :: rest) ∧
  (∀ (i : Instr) (s t : State), exec i s = .next t → t.fault = (s.fault || decide (t.err = .accessFault))) ∧
  (∀ (s : State) (w : Word) (e : DecodeError), s.Idle → decode w = .error e →
    ∃ t, s.perform (.write 4 0 w) = .next t ∧ t.err = .illegalCommand ∧ t.fault = true)

/-- R26, R237: whatever happens next, a ready engine stays ready until a reset, and an engine becomes ready only by INIT or INITQ 64:
by its write to CMD or, from a state that meets the invariant, by a step of it while it is in flight. -/
def Obligations.OnlyResetLeavesReady : Prop :=
  (∀ s t : State, step s = .next t → s.cfg = .ready → t.cfg = .ready ∨ ∃ rest, s.script = .reset :: rest) ∧
  (∀ (i : Instr) (s t : State), exec i s = .next t → s.cfg = .unconfigured → t.cfg = .ready →
    i = .init ∨ i = .initq 64) ∧
  (∀ s t : State, State.Inv Config.sensor s → step s = .next t → s.cfg = .unconfigured → t.cfg = .ready →
    ∃ w, (decode w = .ok .init ∨ decode w = .ok (.initq 64)) ∧
      ((∃ rest, s.script = .write 4 0 w :: rest) ∨ ∃ f, s.inflight = some f ∧ f.word = w))

/-- R27: the engine never writes an operand register: only a host write to the register port and a reset change one. -/
def Obligations.EngineNeverWritesOperandRegisters : Prop :=
  ∀ s t : State, step s = .next t →
    t.regs = s.regs ∨ (∃ rest, s.script = .reset :: rest) ∨
      ∃ r v rest, s.script = .write 4 (OperandReg.offset r) v :: rest ∧ t.regs = s.regs.set r v

/-! ## Frames -/

/-- Frame of INIT, INITQ, QSET, LSET, LGET and SEQX, whatever the outcome: all of memory, the operand registers and the host's side are
unchanged; QTAB changes only by INIT, INITQ and QSET, LANES only by INIT, INITQ and LSET, CFG only by INIT and INITQ, RESULT and
RESULT_HI only by LGET and SEQX; of STATUS, FAULT changes only with an AccessFault. -/
def Obligations.FrameOfCommandsThatStoreNothing : Prop :=
  ∀ (i : Instr) (s t : State), jobOf i s.regs = none → i ≠ .qget → exec i s = .next t →
    t.mem = s.mem ∧ t.regs = s.regs ∧ SameHost s t ∧
    (i = .init ∨ (∃ n, i = .initq n) ∨ (∃ n, i = .qset n) ∨ t.qtab = s.qtab) ∧
    (i = .init ∨ (∃ n, i = .initq n) ∨ (∃ n, i = .lset n) ∨ t.lanes = s.lanes) ∧
    (i = .init ∨ (∃ n, i = .initq n) ∨ t.cfg = s.cfg) ∧
    (i = .lget ∨ i = .seqx ∨ (t.result = s.result ∧ t.resultHi = s.resultHi)) ∧
    (t.err = .accessFault ∨ t.fault = s.fault)

/-- Frame of QGET, DECF, DECR and DECDC, whatever the outcome: every register, QTAB, LANES and CFG are unchanged, and every byte of
memory outside the bytes the command computes to write, from the first byte of its image on, reads as before. -/
def Obligations.FrameOfCommandsThatStore : Prop :=
  ∀ (i : Instr) (s t : State), i = .qget ∨ i = .decf ∨ i = .decr ∨ i = .decdc → exec i s = .next t →
    t = { s with mem := t.mem, fault := t.fault, err := t.err, busy := false, done := true, inflight := none } ∧
    MemorySameOutside (writeRange i s.regs).1 (writeRange i s.regs).2 s t ∧
    (t.err = .accessFault ∨ t.fault = s.fault)

/-- R67: no command writes a byte outside the destination window. -/
def Obligations.CommandsWriteOnlyTheDestinationWindow : Prop :=
  ∀ (i : Instr) (s t : State) (a : Nat), exec i s = .next t → s.regs.dst.covers a = false → t.mem.read a = s.mem.read a

/-- R66: no command reads a byte outside the source window: two states that differ in memory outside it only give the same registers,
the same STATUS, and the same bytes wherever the command writes. -/
def Obligations.CommandsReadOnlyTheSourceWindow : Prop :=
  ∀ (i : Instr) (s t t' : State) (m : Memory), s.mem.wf = true → m.wf = true →
    (∀ a, s.regs.src.covers a = true → m.read a = s.mem.read a) →
    exec i s = .next t → exec i { s with mem := m } = .next t' →
      { t' with mem := t.mem } = t ∧
      (t.err = .ok → ∀ a, (writeRange i s.regs).1 ≤ a → a < (writeRange i s.regs).1 + (writeRange i s.regs).2 →
        t'.mem.read a = t.mem.read a)

/-! ## The invariant -/

/-- The state after reset meets the invariant. -/
def Obligations.ResetMeetsTheInvariant : Prop := State.Inv Config.sensor State.reset

/-- Every step keeps the invariant, from every state that meets it: memory in canonical form inside the address space, LANES in range
once READY, BUSY exactly while a command is in flight and never with DONE, FAULT set with codes 4 and 5, and a command in flight
on its sampled operands with its checks passed. -/
def Obligations.EveryStepKeepsTheInvariant : Prop :=
  ∀ s t : State, State.Inv Config.sensor s → step s = .next t → State.Inv Config.sensor t
end

