-- ==== Sys2Proof/Laws/Memory.lean ====
section
/-! SUPPORT. What the operations over memory do: read after write, the canonical form, and that a memory in canonical form is
determined by what its addresses read as. -/

namespace Sys2Proof.Machine

/-! ## One byte -/

/-- A memory in canonical form whose entries all lie above `a` reads as the background at `a` and below. -/
theorem Memory.read_eq_background_of_lt {m : Memory} {a : Nat} (h : ∀ c ∈ m, a < c.1) : m.read a = Memory.background := by
  induction m with
  | nil => rfl
  | cons c m ih =>
    obtain ⟨b, w⟩ := c
    have hb : a < b := h (b, w) (by simp)
    simp only [Memory.read, if_neg (Nat.ne_of_lt hb)]
    exact ih fun c hc => h c (by simp [hc])

/-- The parts of the canonical form of a nonempty memory. -/
theorem Memory.wf_cons_iff {a : Nat} {v : Byte} {m : Memory} :
    Memory.wf ((a, v) :: m) = true ↔
      a < 4294967296 ∧ v ≠ Memory.background ∧ (∀ c ∈ m, a < c.1) ∧ m.wf = true := by
  simp [Memory.wf, and_assoc, Config.memBytes]

@[simp] theorem Memory.wf_nil : Memory.wf [] = true := rfl

/-- A stored byte reads back. -/
theorem Memory.read_write_same {m : Memory} (hm : m.wf = true) (a : Nat) (v : Byte) : (m.write a v).read a = v := by
  induction m with
  | nil => by_cases hv : v = Memory.background <;> simp [Memory.write, Memory.read, hv]
  | cons c m ih =>
    obtain ⟨b, w⟩ := c
    obtain ⟨-, -, hlt, hwf⟩ := Memory.wf_cons_iff.1 hm
    simp only [Memory.write]
    split
    · rename_i hab
      split
      · rename_i hv
        rw [Memory.read_eq_background_of_lt, hv]
        intro c hc
        rcases List.mem_cons.1 hc with rfl | hc
        · exact hab
        · exact Nat.lt_trans hab (hlt c hc)
      · simp [Memory.read]
    · split
      · rename_i hab
        subst hab
        split
        · rename_i hv
          rw [Memory.read_eq_background_of_lt hlt, hv]
        · simp [Memory.read]
      · rename_i h1 h2
        simp only [Memory.read, if_neg h2]
        exact ih hwf

/-- A store leaves every other address alone. -/
theorem Memory.read_write_other (m : Memory) {a a' : Nat} (v : Byte) (h : a' ≠ a) : (m.write a v).read a' = m.read a' := by
  induction m with
  | nil => by_cases hv : v = Memory.background <;> simp [Memory.write, Memory.read, hv, h]
  | cons c m ih =>
    obtain ⟨b, w⟩ := c
    simp only [Memory.write]
    split
    · split
      · rfl
      · simp [Memory.read, h]
    · split
      · rename_i hab
        subst hab
        split <;> simp [Memory.read, h]
      · simp only [Memory.read]
        split
        · rfl
        · exact ih

/-- Read after write, both cases. -/
theorem Memory.read_write {m : Memory} (hm : m.wf = true) (a a' : Nat) (v : Byte) :
    (m.write a v).read a' = if a' = a then v else m.read a' := by
  split
  · rename_i h
    rw [h, Memory.read_write_same hm]
  · rename_i h
    exact Memory.read_write_other m v h

/-- Where the entries of a memory after a store come from. -/
theorem Memory.mem_write {m : Memory} {a : Nat} {v : Byte} {c : Host.Cell} (h : c ∈ m.write a v) : c = (a, v) ∨ c ∈ m := by
  induction m with
  | nil =>
    simp only [Memory.write] at h
    split at h <;> simp_all
  | cons d m ih =>
    obtain ⟨b, w⟩ := d
    simp only [Memory.write] at h
    split at h
    · split at h
      · exact .inr h
      · simpa using h
    · split at h
      · split at h
        · exact .inr (List.mem_cons_of_mem _ h)
        · rcases List.mem_cons.1 h with h | h
          · exact .inl h
          · exact .inr (List.mem_cons_of_mem _ h)
      · rcases List.mem_cons.1 h with h | h
        · exact .inr (by simp [h])
        · exact (ih h).imp_right (List.mem_cons_of_mem _)

/-- A store inside the address space keeps the canonical form. -/
theorem Memory.wf_write {m : Memory} (hm : m.wf = true) {a : Nat} (ha : a < 4294967296) (v : Byte) :
    (m.write a v).wf = true := by
  induction m with
  | nil =>
    simp only [Memory.write]
    split
    · rfl
    · exact Memory.wf_cons_iff.2 ⟨ha, by assumption, by simp, rfl⟩
  | cons c m ih =>
    obtain ⟨b, w⟩ := c
    obtain ⟨hb, hw, hlt, hwf⟩ := Memory.wf_cons_iff.1 hm
    simp only [Memory.write]
    split
    · rename_i hab
      split
      · exact hm
      · rename_i hv
        refine Memory.wf_cons_iff.2 ⟨ha, hv, ?_, hm⟩
        intro c hc
        rcases List.mem_cons.1 hc with rfl | hc
        · exact hab
        · exact Nat.lt_trans hab (hlt c hc)
    · split
      · rename_i hab
        subst hab
        split
        · exact hwf
        · rename_i hv
          exact Memory.wf_cons_iff.2 ⟨ha, hv, hlt, hwf⟩
      · rename_i h1 h2
        refine Memory.wf_cons_iff.2 ⟨hb, hw, ?_, ih hwf⟩
        intro c hc
        rcases Memory.mem_write hc with rfl | hc
        · show b < a
          omega
        · exact hlt c hc

/-- Two memories in canonical form that read alike at every address are the same list. -/
theorem Memory.ext_read {m n : Memory} (hm : m.wf = true) (hn : n.wf = true) (h : ∀ a, m.read a = n.read a) : m = n := by
  induction m generalizing n with
  | nil =>
    cases n with
    | nil => rfl
    | cons d n =>
      obtain ⟨b, w⟩ := d
      obtain ⟨-, hw, -, -⟩ := Memory.wf_cons_iff.1 hn
      exact absurd (by simpa [Memory.read] using (h b).symm) hw
  | cons c m ih =>
    obtain ⟨a, v⟩ := c
    obtain ⟨-, hv, hlt, hwf⟩ := Memory.wf_cons_iff.1 hm
    cases n with
    | nil => exact absurd (by simpa [Memory.read] using h a) hv
    | cons d n =>
      obtain ⟨b, w⟩ := d
      obtain ⟨-, hw, hlt', hwf'⟩ := Memory.wf_cons_iff.1 hn
      rcases Nat.lt_trichotomy a b with hab | hab | hab
      · have := h a
        rw [Memory.read_eq_background_of_lt (m := (b, w) :: n)] at this
        · exact absurd (by simpa [Memory.read] using this) hv
        · intro c hc
          rcases List.mem_cons.1 hc with rfl | hc
          · exact hab
          · exact Nat.lt_trans hab (hlt' c hc)
      · subst hab
        have hvw : v = w := by simpa [Memory.read] using h a
        subst hvw
        congr 1
        refine ih hwf hwf' fun x => ?_
        by_cases hx : x = a
        · rw [hx, Memory.read_eq_background_of_lt hlt, Memory.read_eq_background_of_lt hlt']
        · simpa [Memory.read, hx] using h x
      · have := h b
        rw [Memory.read_eq_background_of_lt (m := (a, v) :: m)] at this
        · exact absurd (by simpa [Memory.read] using this.symm) hw
        · intro c hc
          rcases List.mem_cons.1 hc with rfl | hc
          · exact hab
          · exact Nat.lt_trans hab (hlt c hc)

/-! ## Many bytes -/

@[simp] theorem Memory.writeCells_nil (m : Memory) : m.writeCells [] = m := rfl

@[simp] theorem Memory.writeCells_cons (m : Memory) (c : Host.Cell) (cs : List Host.Cell) :
    m.writeCells (c :: cs) = (m.write c.1 c.2).writeCells cs := rfl

theorem Memory.writeCells_append (m : Memory) (cs ds : List Host.Cell) :
    m.writeCells (cs ++ ds) = (m.writeCells cs).writeCells ds := by
  simp [Memory.writeCells, List.foldl_append]

/-- Stores inside the address space keep the canonical form. -/
theorem Memory.wf_writeCells {m : Memory} (hm : m.wf = true) {cells : List Host.Cell}
    (h : ∀ c ∈ cells, c.1 < 4294967296) : (m.writeCells cells).wf = true := by
  induction cells generalizing m with
  | nil => exact hm
  | cons c cs ih =>
    exact ih (Memory.wf_write hm (h c (by simp)) _) fun d hd => h d (by simp [hd])

/-- Stores leave alone every address that is not among them. -/
theorem Memory.read_writeCells_other {m : Memory} {cells : List Host.Cell} {a : Nat} (h : ∀ c ∈ cells, c.1 ≠ a) :
    (m.writeCells cells).read a = m.read a := by
  induction cells generalizing m with
  | nil => rfl
  | cons c cs ih =>
    rw [Memory.writeCells_cons, ih fun d hd => h d (by simp [hd])]
    exact Memory.read_write_other m _ (Ne.symm (h c (by simp)))

/-- Where all the stores to an address store one value, the address reads as that value after. -/
theorem Memory.read_writeCells_same {m : Memory} (hm : m.wf = true) {cells : List Host.Cell}
    (hb : ∀ c ∈ cells, c.1 < 4294967296) {a : Nat} {v : Byte} (hv : ∀ c ∈ cells, c.1 = a → c.2 = v)
    (hin : (a, v) ∈ cells) : (m.writeCells cells).read a = v := by
  induction cells generalizing m with
  | nil => simp at hin
  | cons c cs ih =>
    rw [Memory.writeCells_cons]
    have hwf := Memory.wf_write hm (hb c (by simp)) c.2
    by_cases hmem : (a, v) ∈ cs
    · exact ih hwf (fun d hd => hb d (by simp [hd])) (fun d hd => hv d (by simp [hd])) hmem
    · have hc : c = (a, v) := by
        rcases List.mem_cons.1 hin with h | h
        · exact h.symm
        · exact absurd h hmem
      rw [Memory.read_writeCells_other, hc, Memory.read_write_same hm]
      intro d hd hda
      apply hmem
      have : d.2 = v := hv d (by simp [hd]) hda
      rw [← hda, ← this]
      exact hd

/-! ## Byte order -/

@[simp] theorem leBytes_length (n v : Nat) : (leBytes n v).length = n := by
  induction n generalizing v with
  | zero => rfl
  | succ n ih => simp [leBytes, ih]

/-- The bytes of a number, read again, are the number reduced to their width (R60). -/
theorem leValue_leBytes (n v : Nat) : leValue (leBytes n v) = v % 256 ^ n := by
  induction n generalizing v with
  | zero => simp [leBytes, leValue, Nat.mod_one]
  | succ n ih =>
    simp only [leBytes, leValue, ih, BitVec.toNat_ofNat]
    rw [show 256 ^ (n + 1) = 256 * 256 ^ n from Nat.pow_succ', Nat.mod_mul]

/-- A value assembled from `n` bytes fits them (R60). -/
theorem leValue_lt (bs : List Byte) : leValue bs < 256 ^ bs.length := by
  induction bs with
  | nil => simp [leValue]
  | cons b bs ih =>
    have := b.isLt
    simp only [leValue, List.length_cons, Nat.pow_succ]
    omega

@[simp] theorem Memory.readBytes_length (m : Memory) (a n : Nat) : (m.readBytes a n).length = n := by
  induction n generalizing a with
  | zero => rfl
  | succ n ih => simp [Memory.readBytes, ih]

/-- Byte `k` of a run read from memory. -/
theorem Memory.getElem_readBytes (m : Memory) (a n k : Nat) (h : k < (m.readBytes a n).length) :
    (m.readBytes a n)[k] = m.read (a + k) := by
  induction n generalizing a k with
  | zero => simp at h
  | succ n ih =>
    cases k with
    | zero => simp [Memory.readBytes]
    | succ k =>
      simp only [Memory.readBytes, List.getElem_cons_succ]
      rw [ih (a + 1) k (by simpa [Memory.readBytes] using h)]
      congr 1
      omega

/-- Reading a run depends only on the bytes of the run. -/
theorem Memory.readBytes_congr {m n : Memory} {a k : Nat} (h : ∀ i < k, m.read (a + i) = n.read (a + i)) :
    m.readBytes a k = n.readBytes a k := by
  induction k generalizing a with
  | zero => rfl
  | succ k ih =>
    simp only [Memory.readBytes]
    rw [show m.read a = n.read a from by simpa using h 0 (by omega), ih]
    intro i hi
    have := h (i + 1) (by omega)
    rwa [show a + 1 + i = a + (i + 1) from by omega]

/-- Membership in a run of cells. -/
theorem mem_cellsAt {a : Nat} {bs : List Byte} {c : Host.Cell} :
    c ∈ cellsAt a bs ↔ ∃ k, ∃ h : k < bs.length, c = (a + k, bs[k]) := by
  induction bs generalizing a with
  | nil => simp [cellsAt]
  | cons b bs ih =>
    simp only [cellsAt, List.mem_cons, ih]
    constructor
    · rintro (rfl | ⟨k, hk, rfl⟩)
      · exact ⟨0, by simp, by simp⟩
      · exact ⟨k + 1, by simpa using hk, by simp; omega⟩
    · rintro ⟨k, hk, rfl⟩
      cases k with
      | zero => exact .inl (by simp)
      | succ k => exact .inr ⟨k, by simpa using hk, by simp; omega⟩

/-- The cells of `MemWrite(a, n, v)` lie at `a` to `a + n - 1`. -/
theorem memWriteCells_range {a n v : Nat} {c : Host.Cell} (h : c ∈ memWriteCells a n v) : a ≤ c.1 ∧ c.1 < a + n := by
  obtain ⟨k, hk, rfl⟩ := mem_cellsAt.1 h
  rw [leBytes_length] at hk
  exact ⟨by simp, by simpa using hk⟩

end Sys2Proof.Machine
end

