-- ==== Sys2Proof/Laws/State.lean ====
section
/-! SUPPORT. What each update of the state does to each field: one lemma per field per update, so that no later proof unfolds a
record update. -/

namespace Sys2Proof.Machine

/-! ## setTable -/

@[simp] theorem State.setTable_cfg (s : State) (t : Table) : (s.setTable t).cfg = s.cfg := rfl
@[simp] theorem State.setTable_qtab (s : State) (t : Table) : (s.setTable t).qtab = t := rfl
@[simp] theorem State.setTable_lanes (s : State) (t : Table) : (s.setTable t).lanes = s.lanes := rfl
@[simp] theorem State.setTable_regs (s : State) (t : Table) : (s.setTable t).regs = s.regs := rfl
@[simp] theorem State.setTable_busy (s : State) (t : Table) : (s.setTable t).busy = s.busy := rfl
@[simp] theorem State.setTable_done (s : State) (t : Table) : (s.setTable t).done = s.done := rfl
@[simp] theorem State.setTable_fault (s : State) (t : Table) : (s.setTable t).fault = s.fault := rfl
@[simp] theorem State.setTable_err (s : State) (t : Table) : (s.setTable t).err = s.err := rfl
@[simp] theorem State.setTable_result (s : State) (t : Table) : (s.setTable t).result = s.result := rfl
@[simp] theorem State.setTable_resultHi (s : State) (t : Table) : (s.setTable t).resultHi = s.resultHi := rfl
@[simp] theorem State.setTable_mem (s : State) (t : Table) : (s.setTable t).mem = s.mem := rfl
@[simp] theorem State.setTable_inflight (s : State) (t : Table) : (s.setTable t).inflight = s.inflight := rfl
@[simp] theorem State.setTable_script (s : State) (t : Table) : (s.setTable t).script = s.script := rfl
@[simp] theorem State.setTable_observed (s : State) (t : Table) : (s.setTable t).observed = s.observed := rfl
@[simp] theorem State.setTable_tick (s : State) (t : Table) : (s.setTable t).tick = s.tick := rfl

/-! ## construct -/

@[simp] theorem State.construct_cfg (s : State) (p : Profile) (t : Table) : (s.construct p t).cfg = .ready := rfl
@[simp] theorem State.construct_qtab (s : State) (p : Profile) (t : Table) : (s.construct p t).qtab = t := rfl
@[simp] theorem State.construct_lanes (s : State) (p : Profile) (t : Table) : (s.construct p t).lanes = BitVec.ofNat Config.lanesW p.lanesReset := rfl
@[simp] theorem State.construct_regs (s : State) (p : Profile) (t : Table) : (s.construct p t).regs = s.regs := rfl
@[simp] theorem State.construct_busy (s : State) (p : Profile) (t : Table) : (s.construct p t).busy = s.busy := rfl
@[simp] theorem State.construct_done (s : State) (p : Profile) (t : Table) : (s.construct p t).done = s.done := rfl
@[simp] theorem State.construct_fault (s : State) (p : Profile) (t : Table) : (s.construct p t).fault = s.fault := rfl
@[simp] theorem State.construct_err (s : State) (p : Profile) (t : Table) : (s.construct p t).err = s.err := rfl
@[simp] theorem State.construct_result (s : State) (p : Profile) (t : Table) : (s.construct p t).result = s.result := rfl
@[simp] theorem State.construct_resultHi (s : State) (p : Profile) (t : Table) : (s.construct p t).resultHi = s.resultHi := rfl
@[simp] theorem State.construct_mem (s : State) (p : Profile) (t : Table) : (s.construct p t).mem = s.mem := rfl
@[simp] theorem State.construct_inflight (s : State) (p : Profile) (t : Table) : (s.construct p t).inflight = s.inflight := rfl
@[simp] theorem State.construct_script (s : State) (p : Profile) (t : Table) : (s.construct p t).script = s.script := rfl
@[simp] theorem State.construct_observed (s : State) (p : Profile) (t : Table) : (s.construct p t).observed = s.observed := rfl
@[simp] theorem State.construct_tick (s : State) (p : Profile) (t : Table) : (s.construct p t).tick = s.tick := rfl

/-! ## setLanes -/

@[simp] theorem State.setLanes_cfg (s : State) (n : Nat) : (s.setLanes n).cfg = s.cfg := rfl
@[simp] theorem State.setLanes_qtab (s : State) (n : Nat) : (s.setLanes n).qtab = s.qtab := rfl
@[simp] theorem State.setLanes_lanes (s : State) (n : Nat) : (s.setLanes n).lanes = BitVec.ofNat Config.lanesW n := rfl
@[simp] theorem State.setLanes_regs (s : State) (n : Nat) : (s.setLanes n).regs = s.regs := rfl
@[simp] theorem State.setLanes_busy (s : State) (n : Nat) : (s.setLanes n).busy = s.busy := rfl
@[simp] theorem State.setLanes_done (s : State) (n : Nat) : (s.setLanes n).done = s.done := rfl
@[simp] theorem State.setLanes_fault (s : State) (n : Nat) : (s.setLanes n).fault = s.fault := rfl
@[simp] theorem State.setLanes_err (s : State) (n : Nat) : (s.setLanes n).err = s.err := rfl
@[simp] theorem State.setLanes_result (s : State) (n : Nat) : (s.setLanes n).result = s.result := rfl
@[simp] theorem State.setLanes_resultHi (s : State) (n : Nat) : (s.setLanes n).resultHi = s.resultHi := rfl
@[simp] theorem State.setLanes_mem (s : State) (n : Nat) : (s.setLanes n).mem = s.mem := rfl
@[simp] theorem State.setLanes_inflight (s : State) (n : Nat) : (s.setLanes n).inflight = s.inflight := rfl
@[simp] theorem State.setLanes_script (s : State) (n : Nat) : (s.setLanes n).script = s.script := rfl
@[simp] theorem State.setLanes_observed (s : State) (n : Nat) : (s.setLanes n).observed = s.observed := rfl
@[simp] theorem State.setLanes_tick (s : State) (n : Nat) : (s.setLanes n).tick = s.tick := rfl

/-! ## setResult -/

@[simp] theorem State.setResult_cfg (s : State) (v : BitVec 64) : (s.setResult v).cfg = s.cfg := rfl
@[simp] theorem State.setResult_qtab (s : State) (v : BitVec 64) : (s.setResult v).qtab = s.qtab := rfl
@[simp] theorem State.setResult_lanes (s : State) (v : BitVec 64) : (s.setResult v).lanes = s.lanes := rfl
@[simp] theorem State.setResult_regs (s : State) (v : BitVec 64) : (s.setResult v).regs = s.regs := rfl
@[simp] theorem State.setResult_busy (s : State) (v : BitVec 64) : (s.setResult v).busy = s.busy := rfl
@[simp] theorem State.setResult_done (s : State) (v : BitVec 64) : (s.setResult v).done = s.done := rfl
@[simp] theorem State.setResult_fault (s : State) (v : BitVec 64) : (s.setResult v).fault = s.fault := rfl
@[simp] theorem State.setResult_err (s : State) (v : BitVec 64) : (s.setResult v).err = s.err := rfl
@[simp] theorem State.setResult_result (s : State) (v : BitVec 64) : (s.setResult v).result = v.extractLsb' 0 32 := rfl
@[simp] theorem State.setResult_resultHi (s : State) (v : BitVec 64) : (s.setResult v).resultHi = v.extractLsb' 32 32 := rfl
@[simp] theorem State.setResult_mem (s : State) (v : BitVec 64) : (s.setResult v).mem = s.mem := rfl
@[simp] theorem State.setResult_inflight (s : State) (v : BitVec 64) : (s.setResult v).inflight = s.inflight := rfl
@[simp] theorem State.setResult_script (s : State) (v : BitVec 64) : (s.setResult v).script = s.script := rfl
@[simp] theorem State.setResult_observed (s : State) (v : BitVec 64) : (s.setResult v).observed = s.observed := rfl
@[simp] theorem State.setResult_tick (s : State) (v : BitVec 64) : (s.setResult v).tick = s.tick := rfl

/-! ## storeCells -/

@[simp] theorem State.storeCells_cfg (s : State) (cells : List Host.Cell) : (s.storeCells cells).cfg = s.cfg := rfl
@[simp] theorem State.storeCells_qtab (s : State) (cells : List Host.Cell) : (s.storeCells cells).qtab = s.qtab := rfl
@[simp] theorem State.storeCells_lanes (s : State) (cells : List Host.Cell) : (s.storeCells cells).lanes = s.lanes := rfl
@[simp] theorem State.storeCells_regs (s : State) (cells : List Host.Cell) : (s.storeCells cells).regs = s.regs := rfl
@[simp] theorem State.storeCells_busy (s : State) (cells : List Host.Cell) : (s.storeCells cells).busy = s.busy := rfl
@[simp] theorem State.storeCells_done (s : State) (cells : List Host.Cell) : (s.storeCells cells).done = s.done := rfl
@[simp] theorem State.storeCells_fault (s : State) (cells : List Host.Cell) : (s.storeCells cells).fault = s.fault := rfl
@[simp] theorem State.storeCells_err (s : State) (cells : List Host.Cell) : (s.storeCells cells).err = s.err := rfl
@[simp] theorem State.storeCells_result (s : State) (cells : List Host.Cell) : (s.storeCells cells).result = s.result := rfl
@[simp] theorem State.storeCells_resultHi (s : State) (cells : List Host.Cell) : (s.storeCells cells).resultHi = s.resultHi := rfl
@[simp] theorem State.storeCells_mem (s : State) (cells : List Host.Cell) : (s.storeCells cells).mem = s.mem.writeCells cells := rfl
@[simp] theorem State.storeCells_inflight (s : State) (cells : List Host.Cell) : (s.storeCells cells).inflight = s.inflight := rfl
@[simp] theorem State.storeCells_script (s : State) (cells : List Host.Cell) : (s.storeCells cells).script = s.script := rfl
@[simp] theorem State.storeCells_observed (s : State) (cells : List Host.Cell) : (s.storeCells cells).observed = s.observed := rfl
@[simp] theorem State.storeCells_tick (s : State) (cells : List Host.Cell) : (s.storeCells cells).tick = s.tick := rfl

/-! ## setRegs -/

@[simp] theorem State.setRegs_cfg (s : State) (r : OperandRegs) : (s.setRegs r).cfg = s.cfg := rfl
@[simp] theorem State.setRegs_qtab (s : State) (r : OperandRegs) : (s.setRegs r).qtab = s.qtab := rfl
@[simp] theorem State.setRegs_lanes (s : State) (r : OperandRegs) : (s.setRegs r).lanes = s.lanes := rfl
@[simp] theorem State.setRegs_regs (s : State) (r : OperandRegs) : (s.setRegs r).regs = r := rfl
@[simp] theorem State.setRegs_busy (s : State) (r : OperandRegs) : (s.setRegs r).busy = s.busy := rfl
@[simp] theorem State.setRegs_done (s : State) (r : OperandRegs) : (s.setRegs r).done = s.done := rfl
@[simp] theorem State.setRegs_fault (s : State) (r : OperandRegs) : (s.setRegs r).fault = s.fault := rfl
@[simp] theorem State.setRegs_err (s : State) (r : OperandRegs) : (s.setRegs r).err = s.err := rfl
@[simp] theorem State.setRegs_result (s : State) (r : OperandRegs) : (s.setRegs r).result = s.result := rfl
@[simp] theorem State.setRegs_resultHi (s : State) (r : OperandRegs) : (s.setRegs r).resultHi = s.resultHi := rfl
@[simp] theorem State.setRegs_mem (s : State) (r : OperandRegs) : (s.setRegs r).mem = s.mem := rfl
@[simp] theorem State.setRegs_inflight (s : State) (r : OperandRegs) : (s.setRegs r).inflight = s.inflight := rfl
@[simp] theorem State.setRegs_script (s : State) (r : OperandRegs) : (s.setRegs r).script = s.script := rfl
@[simp] theorem State.setRegs_observed (s : State) (r : OperandRegs) : (s.setRegs r).observed = s.observed := rfl
@[simp] theorem State.setRegs_tick (s : State) (r : OperandRegs) : (s.setRegs r).tick = s.tick := rfl

/-! ## observe -/

@[simp] theorem State.observe_cfg (s : State) (o : Observation) : (s.observe o).cfg = s.cfg := rfl
@[simp] theorem State.observe_qtab (s : State) (o : Observation) : (s.observe o).qtab = s.qtab := rfl
@[simp] theorem State.observe_lanes (s : State) (o : Observation) : (s.observe o).lanes = s.lanes := rfl
@[simp] theorem State.observe_regs (s : State) (o : Observation) : (s.observe o).regs = s.regs := rfl
@[simp] theorem State.observe_busy (s : State) (o : Observation) : (s.observe o).busy = s.busy := rfl
@[simp] theorem State.observe_done (s : State) (o : Observation) : (s.observe o).done = s.done := rfl
@[simp] theorem State.observe_fault (s : State) (o : Observation) : (s.observe o).fault = s.fault := rfl
@[simp] theorem State.observe_err (s : State) (o : Observation) : (s.observe o).err = s.err := rfl
@[simp] theorem State.observe_result (s : State) (o : Observation) : (s.observe o).result = s.result := rfl
@[simp] theorem State.observe_resultHi (s : State) (o : Observation) : (s.observe o).resultHi = s.resultHi := rfl
@[simp] theorem State.observe_mem (s : State) (o : Observation) : (s.observe o).mem = s.mem := rfl
@[simp] theorem State.observe_inflight (s : State) (o : Observation) : (s.observe o).inflight = s.inflight := rfl
@[simp] theorem State.observe_script (s : State) (o : Observation) : (s.observe o).script = s.script := rfl
@[simp] theorem State.observe_observed (s : State) (o : Observation) : (s.observe o).observed = o :: s.observed := rfl
@[simp] theorem State.observe_tick (s : State) (o : Observation) : (s.observe o).tick = s.tick := rfl

/-! ## nextTick -/

@[simp] theorem State.nextTick_cfg (s : State) : (s.nextTick).cfg = s.cfg := rfl
@[simp] theorem State.nextTick_qtab (s : State) : (s.nextTick).qtab = s.qtab := rfl
@[simp] theorem State.nextTick_lanes (s : State) : (s.nextTick).lanes = s.lanes := rfl
@[simp] theorem State.nextTick_regs (s : State) : (s.nextTick).regs = s.regs := rfl
@[simp] theorem State.nextTick_busy (s : State) : (s.nextTick).busy = s.busy := rfl
@[simp] theorem State.nextTick_done (s : State) : (s.nextTick).done = s.done := rfl
@[simp] theorem State.nextTick_fault (s : State) : (s.nextTick).fault = s.fault := rfl
@[simp] theorem State.nextTick_err (s : State) : (s.nextTick).err = s.err := rfl
@[simp] theorem State.nextTick_result (s : State) : (s.nextTick).result = s.result := rfl
@[simp] theorem State.nextTick_resultHi (s : State) : (s.nextTick).resultHi = s.resultHi := rfl
@[simp] theorem State.nextTick_mem (s : State) : (s.nextTick).mem = s.mem := rfl
@[simp] theorem State.nextTick_inflight (s : State) : (s.nextTick).inflight = s.inflight := rfl
@[simp] theorem State.nextTick_script (s : State) : (s.nextTick).script = s.script := rfl
@[simp] theorem State.nextTick_observed (s : State) : (s.nextTick).observed = s.observed := rfl
@[simp] theorem State.nextTick_tick (s : State) : (s.nextTick).tick = s.tick + 1 := rfl

/-! ## accept -/

@[simp] theorem State.accept_cfg (s : State) (w : Word) : (s.accept w).cfg = s.cfg := rfl
@[simp] theorem State.accept_qtab (s : State) (w : Word) : (s.accept w).qtab = s.qtab := rfl
@[simp] theorem State.accept_lanes (s : State) (w : Word) : (s.accept w).lanes = s.lanes := rfl
@[simp] theorem State.accept_regs (s : State) (w : Word) : (s.accept w).regs = s.regs := rfl
@[simp] theorem State.accept_busy (s : State) (w : Word) : (s.accept w).busy = true := rfl
@[simp] theorem State.accept_done (s : State) (w : Word) : (s.accept w).done = false := rfl
@[simp] theorem State.accept_fault (s : State) (w : Word) : (s.accept w).fault = s.fault := rfl
@[simp] theorem State.accept_err (s : State) (w : Word) : (s.accept w).err = s.err := rfl
@[simp] theorem State.accept_result (s : State) (w : Word) : (s.accept w).result = s.result := rfl
@[simp] theorem State.accept_resultHi (s : State) (w : Word) : (s.accept w).resultHi = s.resultHi := rfl
@[simp] theorem State.accept_mem (s : State) (w : Word) : (s.accept w).mem = s.mem := rfl
@[simp] theorem State.accept_inflight (s : State) (w : Word) : (s.accept w).inflight = some ⟨w, s.regs, .checks⟩ := rfl
@[simp] theorem State.accept_script (s : State) (w : Word) : (s.accept w).script = s.script := rfl
@[simp] theorem State.accept_observed (s : State) (w : Word) : (s.accept w).observed = s.observed := rfl
@[simp] theorem State.accept_tick (s : State) (w : Word) : (s.accept w).tick = s.tick := rfl

/-! ## complete -/

@[simp] theorem State.complete_cfg (s : State) : (s.complete).cfg = s.cfg := rfl
@[simp] theorem State.complete_qtab (s : State) : (s.complete).qtab = s.qtab := rfl
@[simp] theorem State.complete_lanes (s : State) : (s.complete).lanes = s.lanes := rfl
@[simp] theorem State.complete_regs (s : State) : (s.complete).regs = s.regs := rfl
@[simp] theorem State.complete_busy (s : State) : (s.complete).busy = false := rfl
@[simp] theorem State.complete_done (s : State) : (s.complete).done = true := rfl
@[simp] theorem State.complete_fault (s : State) : (s.complete).fault = s.fault := rfl
@[simp] theorem State.complete_err (s : State) : (s.complete).err = .ok := rfl
@[simp] theorem State.complete_result (s : State) : (s.complete).result = s.result := rfl
@[simp] theorem State.complete_resultHi (s : State) : (s.complete).resultHi = s.resultHi := rfl
@[simp] theorem State.complete_mem (s : State) : (s.complete).mem = s.mem := rfl
@[simp] theorem State.complete_inflight (s : State) : (s.complete).inflight = none := rfl
@[simp] theorem State.complete_script (s : State) : (s.complete).script = s.script := rfl
@[simp] theorem State.complete_observed (s : State) : (s.complete).observed = s.observed := rfl
@[simp] theorem State.complete_tick (s : State) : (s.complete).tick = s.tick := rfl

/-! ## raise -/

@[simp] theorem State.raise_cfg (s : State) (e : Err) : (s.raise e).cfg = s.cfg := rfl
@[simp] theorem State.raise_qtab (s : State) (e : Err) : (s.raise e).qtab = s.qtab := rfl
@[simp] theorem State.raise_lanes (s : State) (e : Err) : (s.raise e).lanes = s.lanes := rfl
@[simp] theorem State.raise_regs (s : State) (e : Err) : (s.raise e).regs = s.regs := rfl
@[simp] theorem State.raise_busy (s : State) (e : Err) : (s.raise e).busy = false := rfl
@[simp] theorem State.raise_done (s : State) (e : Err) : (s.raise e).done = true := rfl
@[simp] theorem State.raise_fault (s : State) (e : Err) : (s.raise e).fault = (s.fault || e.sticky) := rfl
@[simp] theorem State.raise_err (s : State) (e : Err) : (s.raise e).err = e := rfl
@[simp] theorem State.raise_result (s : State) (e : Err) : (s.raise e).result = s.result := rfl
@[simp] theorem State.raise_resultHi (s : State) (e : Err) : (s.raise e).resultHi = s.resultHi := rfl
@[simp] theorem State.raise_mem (s : State) (e : Err) : (s.raise e).mem = s.mem := rfl
@[simp] theorem State.raise_inflight (s : State) (e : Err) : (s.raise e).inflight = none := rfl
@[simp] theorem State.raise_script (s : State) (e : Err) : (s.raise e).script = s.script := rfl
@[simp] theorem State.raise_observed (s : State) (e : Err) : (s.raise e).observed = s.observed := rfl
@[simp] theorem State.raise_tick (s : State) (e : Err) : (s.raise e).tick = s.tick := rfl

/-! ## resetEvent -/

@[simp] theorem State.resetEvent_cfg (s : State) (p : Profile) : (s.resetEvent p).cfg = .unconfigured := rfl
@[simp] theorem State.resetEvent_qtab (s : State) (p : Profile) : (s.resetEvent p).qtab = tableAfterReset s.tick := rfl
@[simp] theorem State.resetEvent_lanes (s : State) (p : Profile) : (s.resetEvent p).lanes = lanesAfterReset s.tick := rfl
@[simp] theorem State.resetEvent_regs (s : State) (p : Profile) : (s.resetEvent p).regs = OperandRegs.zero := rfl
@[simp] theorem State.resetEvent_busy (s : State) (p : Profile) : (s.resetEvent p).busy = false := rfl
@[simp] theorem State.resetEvent_done (s : State) (p : Profile) : (s.resetEvent p).done = false := rfl
@[simp] theorem State.resetEvent_fault (s : State) (p : Profile) : (s.resetEvent p).fault = false := rfl
@[simp] theorem State.resetEvent_err (s : State) (p : Profile) : (s.resetEvent p).err = .ok := rfl
@[simp] theorem State.resetEvent_result (s : State) (p : Profile) : (s.resetEvent p).result = 0 := rfl
@[simp] theorem State.resetEvent_resultHi (s : State) (p : Profile) : (s.resetEvent p).resultHi = 0 := rfl
@[simp] theorem State.resetEvent_mem (s : State) (p : Profile) : (s.resetEvent p).mem = s.memAfterReset p := rfl
@[simp] theorem State.resetEvent_inflight (s : State) (p : Profile) : (s.resetEvent p).inflight = none := rfl
@[simp] theorem State.resetEvent_script (s : State) (p : Profile) : (s.resetEvent p).script = s.script := rfl
@[simp] theorem State.resetEvent_observed (s : State) (p : Profile) : (s.resetEvent p).observed = s.observed := rfl
@[simp] theorem State.resetEvent_tick (s : State) (p : Profile) : (s.resetEvent p).tick = s.tick + 1 := rfl

end Sys2Proof.Machine
end

