-- ==== Sys2Proof/Laws/Command.lean ====
section
/-! SUPPORT. What a command can do, said once: every command answers a next state, which is the state before with an error recorded or
the completed effect; and what each check says. -/

namespace Sys2Proof.Machine

/-! ## Widths in numbers -/

/-- A table entry is at most 65535 (R9). -/
theorem entry_lt (e : Entry) : e.toNat < 65536 := e.isLt

/-- LANES has 6 bits (R25). -/
theorem lanes_lt (l : BitVec Config.lanesW) : l.toNat < 64 := l.isLt

/-- The thread count after construction fits LANES (R25, R175). -/
theorem lanesReset_toNat (p : Profile) : (BitVec.ofNat Config.lanesW p.lanesReset).toNat = p.lanesReset := by
  have h : p.lanesReset ≤ 32 := p.lanesReset_range.2
  rw [BitVec.toNat_ofNat, Nat.mod_eq_of_lt]
  exact Nat.lt_of_le_of_lt h (by decide)

/-! ## The frame of R110 -/

/-- A command whose checks fail records the error and nothing else. -/
theorem Command.apply_of_error {c : Command} {s : State} {e : Err} (h : c.error s.cfg s.regs = some e) :
    c.apply s = s.raise e := by simp [Command.apply, h]

/-- A command whose checks pass completes its effect. -/
theorem Command.apply_of_none {c : Command} {s : State} (h : c.error s.cfg s.regs = none) :
    c.apply s = (c.effect s.regs s).complete := by simp [Command.apply, h]

/-- A command reports no success as an error. -/
theorem Command.error_ne_ok {c : Command} {cfg : Cfg} {ops : OperandRegs} : c.error cfg ops ≠ some .ok := by
  unfold Command.error
  repeat' split
  all_goals simp

/-- A command reports no illegal word: the decoder does. -/
theorem Command.error_ne_illegal {c : Command} {cfg : Cfg} {ops : OperandRegs} : c.error cfg ops ≠ some .illegalCommand := by
  unfold Command.error
  repeat' split
  all_goals simp

/-- When every check of a command passes. -/
theorem Command.error_eq_none_iff {c : Command} {cfg : Cfg} {ops : OperandRegs} :
    c.error cfg ops = none ↔
      (c.needsReady = true → cfg = .ready) ∧ c.configOk = true ∧ c.rangeOk ops = true ∧ c.accessOk ops = true := by
  unfold Command.error
  cases cfg <;> cases c.needsReady <;> cases c.configOk <;> cases c.rangeOk ops <;> cases c.accessOk ops <;> simp

/-- The meaning of every command is its frame under the sensor's profile. -/
theorem exec_eq_run (i : Instr) (s : State) : exec i s = (commandOf Config.sensor i).run s := by
  cases i <;> rfl

theorem execWith_eq (p : Profile) (i : Instr) (s : State) : execWith p i s = .next ((commandOf p i).apply s) := rfl

theorem exec_eq_apply (i : Instr) (s : State) : exec i s = .next ((commandOf Config.sensor i).apply s) := exec_eq_run i s

/-- Every command completes (R271). -/
theorem exec_total (i : Instr) (s : State) : ∃ t, exec i s = .next t := ⟨_, exec_eq_apply i s⟩

/-- What a command can do. -/
theorem execWith_cases {p : Profile} {i : Instr} {s t : State} (h : execWith p i s = .next t) :
    (∃ e, (commandOf p i).error s.cfg s.regs = some e ∧ t = s.raise e) ∨
    ((commandOf p i).error s.cfg s.regs = none ∧ t = ((commandOf p i).effect s.regs s).complete) := by
  obtain rfl := by simpa [execWith_eq] using h
  cases he : (commandOf p i).error s.cfg s.regs with
  | some e => exact .inl ⟨e, rfl, Command.apply_of_error he⟩
  | none => exact .inr ⟨rfl, Command.apply_of_none he⟩

/-- What a command can do, for `exec`. -/
theorem exec_cases {i : Instr} {s t : State} (h : exec i s = .next t) :
    (∃ e, (commandOf Config.sensor i).error s.cfg s.regs = some e ∧ t = s.raise e) ∨
    ((commandOf Config.sensor i).error s.cfg s.regs = none ∧
      t = ((commandOf Config.sensor i).effect s.regs s).complete) :=
  execWith_cases (by rwa [exec_eq_run] at h)

/-- Raising an error is a completion with that code. -/
theorem State.raise_completedWith (s : State) (e : Err) : CompletedWith e s (s.raise e) := by
  unfold CompletedWith State.raise
  cases e <;> simp [Err.sticky]

/-! ## Windows -/

/-- An access check, as inequalities (R66, R67). -/
theorem Window.admits_iff {w : Window} {a n : Nat} :
    w.admits a n = true ↔ w.base + w.len ≤ 4294967296 ∧ w.base ≤ a ∧ a + n ≤ w.base + w.len := by
  simp [Window.admits, Window.wellFormed, Window.holds]

/-- A window that does not wrap (R66, R67). -/
theorem Window.wellFormed_iff {w : Window} : w.wellFormed = true ↔ w.base + w.len ≤ 4294967296 := by
  simp [Window.wellFormed]

/-- The bytes of a window, as inequalities. -/
theorem Window.covers_iff {w : Window} {a : Nat} : w.covers a = true ↔ w.base ≤ a ∧ a < w.base + w.len := by
  simp [Window.covers]

/-- The access check of a run from the first byte of the source window. -/
theorem OperandRegs.src_admits_iff {r : OperandRegs} {n : Nat} :
    r.src.admits r.srcBase.toNat n = true ↔ WindowHolds r.srcBase r.srcLen n := by
  rw [Window.admits_iff]
  simp only [OperandRegs.src, WindowHolds]
  omega

/-- The access check of a run from the first byte of the destination window. -/
theorem OperandRegs.dst_admits_iff {r : OperandRegs} {n : Nat} :
    r.dst.admits r.dstBase.toNat n = true ↔ WindowHolds r.dstBase r.dstLen n := by
  rw [Window.admits_iff]
  simp only [OperandRegs.dst, WindowHolds]
  omega

/-- Two ranges that are not empty share no byte exactly when one ends before the other begins (R68). -/
theorem rangesDisjoint_iff {a n b m : Nat} (hn : 0 < n) (hm : 0 < m) :
    rangesDisjoint a n b m = true ↔ ∀ x, ¬((a ≤ x ∧ x < a + n) ∧ (b ≤ x ∧ x < b + m)) := by
  simp only [rangesDisjoint, Bool.or_eq_true, decide_eq_true_eq]
  constructor
  · intro h x hx
    omega
  · intro h
    by_cases hab : a ≤ b
    · have := h b
      omega
    · have := h a
      omega

end Sys2Proof.Machine
end

