-- ==== Sys2Proof/Laws/Blocks.lean ====
section
/-! SUPPORT. The covered blocks of a request and the bytes its block steps write. -/

namespace Sys2Proof.Machine

/-! ## Validators and covered blocks -/

/-- The ROI validator decides R150 to R153. -/
theorem Region.valid_iff {r : Region} {w h : Int} : r.valid w h = true ↔ r.Valid w h := by
  simp [Region.valid, Region.Valid, and_assoc]

/-- The DC validator decides R167. -/
theorem DcRegion.valid_iff {r : DcRegion} {w h : Int} : r.valid w h = true ↔ r.Valid w h := by
  simp [DcRegion.valid, DcRegion.Valid, and_assoc]

theorem mem_blockGrid {c n r m : Nat} {b : Block} :
    b ∈ blockGrid c n r m ↔ (c ≤ b.col ∧ b.col < c + n) ∧ (r ≤ b.row ∧ b.row < r + m) := by
  simp only [blockGrid, List.mem_flatMap, List.mem_map, List.mem_range]
  constructor
  · rintro ⟨i, hi, j, hj, rfl⟩
    exact ⟨⟨by simp, by simpa using hj⟩, by simp, by simpa using hi⟩
  · rintro ⟨⟨h1, h2⟩, h3, h4⟩
    refine ⟨b.row - r, by omega, b.col - c, by omega, ?_⟩
    cases b
    simp only [Block.mk.injEq] at *
    omega

/-- No block is listed twice. -/
theorem nodup_blockGrid (c n r m : Nat) : (blockGrid c n r m).Nodup := by
  unfold blockGrid
  rw [List.nodup_flatMap]
  constructor
  · intro i _
    refine List.Nodup.map ?_ List.nodup_range
    intro a b h
    simpa using h
  · refine List.Pairwise.imp ?_ List.nodup_range
    intro i j hij x hx hy
    simp only [List.mem_map, List.mem_range] at hx hy
    obtain ⟨_, _, rfl⟩ := hx
    obtain ⟨_, _, h⟩ := hy
    simp only [Block.mk.injEq, Nat.add_left_cancel_iff] at h
    exact hij h.2.symm

theorem Region.nodup_blocks (r : Region) : r.blocks.Nodup := nodup_blockGrid _ _ _ _
theorem DcRegion.nodup_blocks (r : DcRegion) : r.blocks.Nodup := nodup_blockGrid _ _ _ _

theorem Job.nodup_blocks (j : Job) : j.blocks.Nodup := by
  cases j with
  | pixels r => exact r.nodup_blocks
  | dc r => exact r.nodup_blocks

/-- The listed blocks of a valid region are those it covers (R164). -/
theorem Region.mem_blocks {r : Region} {w h : Int} (hv : r.Valid w h) {b : Block} : b ∈ r.blocks ↔ r.Covers b := by
  obtain ⟨-, ⟨hx, hy⟩, -, hw, hh⟩ := hv
  simp only [Region.blocks, mem_blockGrid, Region.Covers, Region.colLo, Region.colHi, Region.rowLo, Region.rowHi, Config.blk,
    Nat.cast_ofNat]
  omega

/-- The listed blocks of a valid DC request are those it covers (R168). -/
theorem DcRegion.mem_blocks {r : DcRegion} {w h : Int} (hv : r.Valid w h) {b : Block} : b ∈ r.blocks ↔ r.Covers b := by
  obtain ⟨hc, hr, h0, h1, -, -⟩ := hv
  simp only [DcRegion.blocks, mem_blockGrid, DcRegion.Covers]
  omega

/-! ## The bytes of a block step -/

/-- A position of a block, in numbers (R9). -/
theorem position_lt (k : Position) : k.val < 64 := k.isLt

/-- A sample is one byte (R10, R65). -/
theorem sampleCells_eq (ops : OperandRegs) (cols i j : Nat) (v : Pixel) :
    sampleCells ops cols i j v = [(ops.dstBase.toNat + i * cols + j, v)] := by
  simp [sampleCells, memWriteCells, dstAddr, leBytes, cellsAt, Nat.add_assoc]

/-- What the step of one block writes for a pixel region: one byte per kernel output that lies in the region (R181). -/
theorem mem_pixelCells {ops : OperandRegs} {r : Region} {b : Block} {px : Position → Pixel} {c : Host.Cell} :
    c ∈ pixelCells ops r b px ↔
      ∃ k : Position, r.x ≤ 8 * b.col + (k.val % 8 : Nat) ∧ 8 * b.col + (k.val % 8 : Nat) < r.x + r.width ∧
        r.y ≤ 8 * b.row + (k.val / 8 : Nat) ∧ 8 * b.row + (k.val / 8 : Nat) < r.y + r.height ∧
        c = (ops.dstBase.toNat + (8 * b.row + (k.val / 8 : Nat) - r.y).toNat * r.width.toNat +
          (8 * b.col + (k.val % 8 : Nat) - r.x).toNat, px k) := by
  simp only [pixelCells, List.mem_flatMap, List.mem_finRange, true_and, sampleCells_eq]
  refine exists_congr fun k => ?_
  split
  · rename_i h
    rw [List.mem_singleton]
    constructor
    · intro hc
      exact ⟨h.1, h.2.1, h.2.2.1, h.2.2.2, hc⟩
    · rintro ⟨-, -, -, -, hc⟩
      exact hc
  · rename_i h
    simp only [List.not_mem_nil, false_iff]
    rintro ⟨h1, h2, h3, h4, -⟩
    exact h ⟨h1, h2, h3, h4⟩

/-- What the step of one block writes for a DC request (R203). -/
theorem mem_dcCells {ops : OperandRegs} {r : DcRegion} {b : Block} {v : Pixel} {c : Host.Cell} :
    c ∈ dcCells ops r b v ↔
      r.Covers b ∧ c = (ops.dstBase.toNat + ((b.row : Int) - r.row).toNat * r.cols.toNat + ((b.col : Int) - r.col).toNat, v) := by
  unfold dcCells DcRegion.Covers
  split <;> simp_all [sampleCells_eq]

/-- All the bytes of a valid pixel region: sample `(i, j)` is the full image at `(y + i, x + j)` (R183). -/
theorem Region.mem_allCells {p : Profile} {q : Table} {ops : OperandRegs} {m : Memory} {r : Region} {w h : Int}
    (hv : r.Valid w h) {c : Host.Cell} :
    c ∈ (Job.pixels r).allCells p q ops m ↔
      ∃ i j : Nat, (i : Int) < r.height ∧ (j : Int) < r.width ∧
        c = (ops.dstBase.toNat + i * r.width.toNat + j, fullSample p q ops m (r.y.toNat + i) (r.x.toNat + j)) := by
  obtain ⟨hal, ⟨hx, hy⟩, hfr, hw, hh⟩ := id hv
  simp only [Job.allCells, Job.blocks, Job.cells, List.mem_flatMap, mem_pixelCells, Region.mem_blocks hv, Region.Covers]
  constructor
  · rintro ⟨b, hb, k, h1, h2, h3, h4, rfl⟩
    have hk := position_lt k
    refine ⟨(8 * b.row + (k.val / 8 : Nat) - r.y).toNat, (8 * b.col + (k.val % 8 : Nat) - r.x).toNat, by omega, by omega, ?_⟩
    congr 1
    unfold fullSample
    have e1 : (r.x.toNat + (8 * (b.col : Int) + (k.val % 8 : Nat) - r.x).toNat) = 8 * b.col + k.val % 8 := by omega
    have e2 : (r.y.toNat + (8 * (b.row : Int) + (k.val / 8 : Nat) - r.y).toNat) = 8 * b.row + k.val / 8 := by omega
    rw [e1, e2]
    have e3 : (8 * b.col + k.val % 8) / 8 = b.col := by omega
    have e4 : (8 * b.row + k.val / 8) / 8 = b.row := by omega
    have e5 : Fin.ofNat Config.qn ((8 * b.row + k.val / 8) % 8 * 8 + (8 * b.col + k.val % 8) % 8) = k := by
      apply Fin.ext
      simp only [Fin.ofNat, Config.qn]
      omega
    rw [e3, e4, e5]
  · rintro ⟨i, j, hi, hj, rfl⟩
    refine ⟨⟨(r.x.toNat + j) / 8, (r.y.toNat + i) / 8⟩, by simp only; omega,
      ⟨(r.y.toNat + i) % 8 * 8 + (r.x.toNat + j) % 8, by simp only [Config.qn]; omega⟩, ?_⟩
    simp only
    have e1 : ((r.y.toNat + i) % 8 * 8 + (r.x.toNat + j) % 8) % 8 = (r.x.toNat + j) % 8 := by omega
    have e2 : ((r.y.toNat + i) % 8 * 8 + (r.x.toNat + j) % 8) / 8 = (r.y.toNat + i) % 8 := by omega
    rw [e1, e2]
    refine ⟨by omega, by omega, by omega, by omega, ?_⟩
    have e3 : (8 * (((r.y.toNat + i) / 8 : Nat) : Int) + ((r.y.toNat + i) % 8 : Nat) - r.y).toNat = i := by omega
    have e4 : (8 * (((r.x.toNat + j) / 8 : Nat) : Int) + ((r.x.toNat + j) % 8 : Nat) - r.x).toNat = j := by omega
    rw [e3, e4]
    congr 1
    unfold fullSample
    congr 1
    apply Fin.ext
    simp only [Fin.ofNat, Config.qn, Config.blk]
    omega

/-- All the bytes of a valid DC request: sample `(i, j)` is that of block `(bx + j, by + i)` (R204). -/
theorem DcRegion.mem_allCells {p : Profile} {q : Table} {ops : OperandRegs} {m : Memory} {r : DcRegion} {w h : Int}
    (hv : r.Valid w h) {c : Host.Cell} :
    c ∈ (Job.dc r).allCells p q ops m ↔
      ∃ i j : Nat, (i : Int) < r.rows ∧ (j : Int) < r.cols ∧
        c = (ops.dstBase.toNat + i * r.cols.toNat + j, dcImageSample p q ops m (r.row.toNat + i) (r.col.toNat + j)) := by
  obtain ⟨hc, hr, h0, h1, -, -⟩ := id hv
  simp only [Job.allCells, Job.blocks, Job.cells, List.mem_flatMap, mem_dcCells, DcRegion.mem_blocks hv]
  constructor
  · rintro ⟨b, -, hb, rfl⟩
    obtain ⟨g1, g2, g3, g4⟩ := hb
    refine ⟨((b.row : Int) - r.row).toNat, ((b.col : Int) - r.col).toNat, by omega, by omega, ?_⟩
    congr 1
    unfold dcImageSample
    have e1 : r.col.toNat + ((b.col : Int) - r.col).toNat = b.col := by omega
    have e2 : r.row.toNat + ((b.row : Int) - r.row).toNat = b.row := by omega
    rw [e1, e2]
  · rintro ⟨i, j, hi, hj, rfl⟩
    have hcov : r.Covers ⟨r.col.toNat + j, r.row.toNat + i⟩ := by
      simp only [DcRegion.Covers]
      omega
    refine ⟨⟨r.col.toNat + j, r.row.toNat + i⟩, hcov, hcov, ?_⟩
    have e1 : (((r.row.toNat + i : Nat) : Int) - r.row).toNat = i := by omega
    have e2 : (((r.col.toNat + j : Nat) : Int) - r.col).toNat = j := by omega
    simp only [e1, e2]
    rfl

/-! ## The block work of a job -/

/-- What a valid pixel or DC job is: its validator. -/
def Job.Valid (j : Job) (ops : OperandRegs) : Prop :=
  match j with
  | .pixels r => r.Valid ops.width ops.height
  | .dc r => r.Valid ops.width ops.height

theorem Job.rangeOk_iff {j : Job} {ops : OperandRegs} : j.rangeOk ops = true ↔ j.Valid ops := by
  cases j with
  | pixels r => exact Region.valid_iff
  | dc r => exact DcRegion.valid_iff

/-- The image of a valid job is not empty. -/
theorem Job.dims_pos {j : Job} {ops : OperandRegs} (hv : j.Valid ops) : 0 < j.rows ∧ 0 < j.cols := by
  cases j with
  | pixels r =>
    obtain ⟨-, -, -, hw, hh⟩ := hv
    simp only [Job.rows, Job.cols]
    omega
  | dc r =>
    obtain ⟨hc, hr, -⟩ := hv
    simp only [Job.rows, Job.cols]
    omega

/-- All the bytes of a valid job: sample `(i, k)` of the image, and nothing else (R183, R204). -/
theorem Job.mem_allCells {p : Profile} {q : Table} {ops : OperandRegs} {m : Memory} {j : Job} (hv : j.Valid ops)
    {c : Host.Cell} :
    c ∈ j.allCells p q ops m ↔
      ∃ i k : Nat, i < j.rows ∧ k < j.cols ∧ c = (ops.dstBase.toNat + i * j.cols + k, j.sample p q ops m i k) := by
  cases j with
  | pixels r =>
    rw [Region.mem_allCells hv]
    simp only [Job.rows, Job.cols, Job.sample, Int.lt_toNat]
  | dc r =>
    rw [DcRegion.mem_allCells hv]
    simp only [Job.rows, Job.cols, Job.sample, Int.lt_toNat]

/-- A block step writes inside the image, whatever the block (R75). -/
theorem Job.cells_range {p : Profile} {q : Table} {ops : OperandRegs} {m : Memory} {j : Job} {b : Block}
    {c : Host.Cell} (h : c ∈ j.cells p q ops m b) :
    ops.dstBase.toNat ≤ c.1 ∧ c.1 < ops.dstBase.toNat + j.outBytes := by
  have key : ∀ {i k rows cols : Nat}, i < rows → k < cols → i * cols + k < rows * cols := by
    intro i k rows cols hi hk
    have := Nat.mul_le_mul_right cols hi
    rw [Nat.succ_mul] at this
    omega
  cases j with
  | pixels r =>
    obtain ⟨k, h1, h2, h3, h4, rfl⟩ := mem_pixelCells.1 h
    have := key (i := (8 * b.row + (k.val / 8 : Nat) - r.y).toNat) (k := (8 * b.col + (k.val % 8 : Nat) - r.x).toNat)
      (rows := r.height.toNat) (cols := r.width.toNat) (by omega) (by omega)
    simp only [Job.outBytes, Job.rows, Job.cols, Nat.mul_one]
    omega
  | dc r =>
    obtain ⟨⟨h1, h2, h3, h4⟩, rfl⟩ := mem_dcCells.1 h
    have := key (i := ((b.row : Int) - r.row).toNat) (k := ((b.col : Int) - r.col).toNat)
      (rows := r.rows.toNat) (cols := r.cols.toNat) (by omega) (by omega)
    simp only [Job.outBytes, Job.rows, Job.cols, Nat.mul_one]
    omega

/-- What a block step writes depends only on the bytes of its block, the table and the operands (R130). -/
theorem Job.cells_congr {p : Profile} {q : Table} {ops : OperandRegs} {m n : Memory} {j : Job} {b : Block}
    (h : ∀ a, srcAddr p ops b ≤ a → a < srcAddr p ops b + p.blockBytes → m.read a = n.read a) :
    j.cells p q ops m b = j.cells p q ops n b := by
  have : Machine.blockBytes p ops m b = Machine.blockBytes p ops n b := by
    funext k
    exact h _ (by simp) (by have := k.isLt; omega)
  unfold Job.cells
  rw [this]

end Sys2Proof.Machine
end

