-- ==== Sys2Proof/Laws/Checks.lean ====
section
/-! SUPPORT. What the checks of each command say: the error it reports, as a chain of cases in the order of R227; what a completed
effect keeps; and what block work that has passed its checks leaves in memory. -/

namespace Sys2Proof.Machine

/-! ## The table and thread-count commands and SEQX -/

theorem initq_error {p : Profile} {n : Nat} {cfg : Cfg} {ops : OperandRegs} :
    (commandOf p (.initq n)).error cfg ops =
      if n ≠ 64 then some .configError
      else if ¬WindowHolds ops.srcBase ops.srcLen 256 then some .accessFault else none := by
  simp only [← OperandRegs.src_admits_iff]
  simp [commandOf, initqCommand, Command.error, Config.qn, Config.sourceValueBytes]

theorem qset_error {p : Profile} {n : Nat} {cfg : Cfg} {ops : OperandRegs} :
    (commandOf p (.qset n)).error cfg ops =
      if cfg = .unconfigured then some .stateError
      else if n ≠ 64 then some .configError
      else if ¬WindowHolds ops.srcBase ops.srcLen 256 then some .accessFault else none := by
  simp only [← OperandRegs.src_admits_iff]
  simp [commandOf, qsetCommand, Command.error, Config.qn, Config.sourceValueBytes]

theorem qget_error {p : Profile} {cfg : Cfg} {ops : OperandRegs} :
    (commandOf p .qget).error cfg ops =
      if cfg = .unconfigured then some .stateError
      else if ¬WindowHolds ops.dstBase ops.dstLen 128 then some .accessFault else none := by
  simp only [← OperandRegs.dst_admits_iff]
  simp [commandOf, qgetCommand, Command.error, Config.qn, Config.readBackBytes]

theorem lset_error {p : Profile} {n : Nat} {cfg : Cfg} {ops : OperandRegs} :
    (commandOf p (.lset n)).error cfg ops =
      if cfg = .unconfigured then some .stateError
      else if n < 1 ∨ 32 < n then some .configError else none := by
  simp only [commandOf, lsetCommand, Command.error, Config.lanesMin, Config.lanesMax]
  cases cfg <;> simp

theorem lget_error {p : Profile} {cfg : Cfg} {ops : OperandRegs} :
    (commandOf p .lget).error cfg ops = if cfg = .unconfigured then some .stateError else none := by
  cases cfg <;> rfl

theorem seqx_error {p : Profile} {cfg : Cfg} {ops : OperandRegs} :
    (commandOf p .seqx).error cfg ops =
      if cfg = .unconfigured then some .stateError
      else if ¬WindowHolds ops.srcBase ops.srcLen (p.seqOffset ops.frameW ops.frameH + p.seqBytes) then some .accessFault
      else none := by
  have : ops.src.admits (seqAddr p ops) p.seqBytes = true ↔
      WindowHolds ops.srcBase ops.srcLen (p.seqOffset ops.frameW ops.frameH + p.seqBytes) := by
    rw [Window.admits_iff]
    simp only [seqAddr, WindowHolds, OperandRegs.src]
    omega
  simp only [← this]
  simp [commandOf, seqxCommand, Command.error]

/-! ## The decode commands -/

theorem Job.outBytes_eq (j : Job) : j.outBytes = j.rows * j.cols := by simp [Job.outBytes]

/-- The access check of valid block work decides R182 and R205. -/
theorem Job.accessOk_iff {p : Profile} {j : Job} {ops : OperandRegs} (hv : j.Valid ops) :
    j.accessOk p ops = true ↔ AccessOk p ops (fun b => b ∈ j.blocks) j.outBytes := by
  have hp := p.blockBytes_pos
  have hpos : 0 < j.outBytes := by
    have := Job.dims_pos hv
    rw [Job.outBytes_eq]
    exact Nat.mul_pos this.1 this.2
  simp only [Job.accessOk, Bool.and_eq_true, OperandRegs.dst_admits_iff, List.all_eq_true, rangesDisjoint_iff hp hpos, AccessOk]
  simp only [Window.admits_iff, Window.wellFormed_iff]
  constructor
  · rintro ⟨⟨h1, h2⟩, h3⟩
    refine ⟨h1, h2, fun b hb => ?_⟩
    obtain ⟨⟨g1, g2, g3⟩, g4⟩ := h3 b hb
    refine ⟨?_, g4⟩
    simp only [srcAddr, OperandRegs.src] at g3
    omega
  · rintro ⟨h1, h2, h3⟩
    refine ⟨⟨h1, h2⟩, fun b hb => ?_⟩
    obtain ⟨g1, g2⟩ := h3 b hb
    exact ⟨⟨h1, by simp only [srcAddr, OperandRegs.src]; omega, by simp only [srcAddr, OperandRegs.src]; omega⟩, g2⟩

theorem AccessOk.congr {p : Profile} {ops : OperandRegs} {c c' : Block → Prop} {n : Nat} (h : ∀ b, c b ↔ c' b) :
    AccessOk p ops c n ↔ AccessOk p ops c' n := by
  rw [show c = c' from funext fun b => propext (h b)]

/-- A decode command passes its checks exactly when the engine is ready, the geometry is valid and the bytes lie as they must. -/
theorem decode_error_eq_none_iff {p : Profile} {job : OperandRegs → Job} {cfg : Cfg} {ops : OperandRegs} :
    (decodeCommand p job).error cfg ops = none ↔
      cfg = .ready ∧ (job ops).Valid ops ∧ AccessOk p ops (fun b => b ∈ (job ops).blocks) (job ops).outBytes := by
  rw [Command.error_eq_none_iff]
  simp only [decodeCommand, true_implies, true_and, Job.rangeOk_iff]
  constructor
  · rintro ⟨h1, h2, h3⟩
    exact ⟨h1, h2, (Job.accessOk_iff h2).1 h3⟩
  · rintro ⟨h1, h2, h3⟩
    exact ⟨h1, h2, (Job.accessOk_iff h2).2 h3⟩

theorem decode_error_unconfigured {p : Profile} {job : OperandRegs → Job} {ops : OperandRegs} :
    (decodeCommand p job).error .unconfigured ops = some .stateError := rfl

theorem decode_error_range {p : Profile} {job : OperandRegs → Job} {ops : OperandRegs} (h : ¬(job ops).Valid ops) :
    (decodeCommand p job).error .ready ops = some .rangeError := by
  have : (job ops).rangeOk ops = false := Bool.eq_false_iff.2 fun g => h (Job.rangeOk_iff.1 g)
  simp [Command.error, decodeCommand, this]

theorem decode_error_access {p : Profile} {job : OperandRegs → Job} {ops : OperandRegs} (hv : (job ops).Valid ops)
    (h : ¬AccessOk p ops (fun b => b ∈ (job ops).blocks) (job ops).outBytes) :
    (decodeCommand p job).error .ready ops = some .accessFault := by
  have h1 : (job ops).rangeOk ops = true := Job.rangeOk_iff.2 hv
  have h2 : (job ops).accessOk p ops = false := Bool.eq_false_iff.2 fun g => h ((Job.accessOk_iff hv).1 g)
  simp [Command.error, decodeCommand, h1, h2]

/-! ## Effects -/

/-- No effect touches the operand registers, STATUS.FAULT, STATUS.ERR or the host's side. -/
theorem effect_keeps (p : Profile) (i : Instr) (ops : OperandRegs) (s : State) :
    ((commandOf p i).effect ops s).regs = s.regs ∧ ((commandOf p i).effect ops s).fault = s.fault ∧
      ((commandOf p i).effect ops s).err = s.err ∧ SameHost s ((commandOf p i).effect ops s) := by
  cases i <;> exact ⟨rfl, rfl, rfl, rfl, rfl, rfl⟩

/-- The row and the column of a sample are determined by its place in the image. -/
theorem image_index_unique {cols i k i' k' : Nat} (hk : k < cols) (hk' : k' < cols) (h : i * cols + k = i' * cols + k') :
    i = i' ∧ k = k' := by
  have e : cols * i + k = cols * i' + k' := by rw [Nat.mul_comm cols i, Nat.mul_comm cols i', h]
  have e1 := congrArg (· / cols) e
  have e2 := congrArg (· % cols) e
  have hc : 0 < cols := by omega
  simp only [Nat.mul_add_div hc, Nat.div_eq_of_lt hk, Nat.div_eq_of_lt hk', Nat.mul_add_mod, Nat.mod_eq_of_lt hk,
    Nat.mod_eq_of_lt hk'] at e1 e2
  exact ⟨by omega, e2⟩

/-- All that valid block work writes to one address is one value (R74). -/
theorem Job.allCells_unique {p : Profile} {q : Table} {ops : OperandRegs} {m : Memory} {j : Job} (hv : j.Valid ops)
    {c d : Host.Cell} (hc : c ∈ j.allCells p q ops m) (hd : d ∈ j.allCells p q ops m) (h : c.1 = d.1) : c.2 = d.2 := by
  obtain ⟨i, k, hi, hk, rfl⟩ := (Job.mem_allCells hv).1 hc
  obtain ⟨i', k', hi', hk', rfl⟩ := (Job.mem_allCells hv).1 hd
  simp only at h ⊢
  obtain ⟨rfl, rfl⟩ := image_index_unique (i := i) (i' := i') hk hk' (by omega)
  rfl

/-- Block work writes inside the image. -/
theorem Job.allCells_range {p : Profile} {q : Table} {ops : OperandRegs} {m : Memory} {j : Job} {c : Host.Cell}
    (h : c ∈ j.allCells p q ops m) : ops.dstBase.toNat ≤ c.1 ∧ c.1 < ops.dstBase.toNat + j.outBytes := by
  simp only [Job.allCells, List.mem_flatMap] at h
  obtain ⟨b, -, h⟩ := h
  exact Job.cells_range h

/-- What the read-back of the table writes, byte by byte (R63). -/
theorem mem_readBackCells {q : Table} {ops : OperandRegs} {c : Host.Cell} :
    c ∈ readBackCells q ops ↔
      ∃ i : Position, c = (ops.dstBase.toNat + 2 * i.val, q[i].extractLsb' 0 8) ∨
        c = (ops.dstBase.toNat + 2 * i.val + 1, q[i].extractLsb' 8 8) := by
  simp only [readBackCells, List.mem_flatMap, List.mem_finRange, true_and, memWriteCells, leBytes, cellsAt,
    Config.readBackBytes, List.mem_cons, List.not_mem_nil, or_false]
  refine exists_congr fun i => ?_
  have h1 : BitVec.ofNat 8 q[i].toNat = q[i].extractLsb' 0 8 := by
    apply BitVec.eq_of_toNat_eq
    simp
  have h2 : BitVec.ofNat 8 (q[i].toNat / 256) = q[i].extractLsb' 8 8 := by
    apply BitVec.eq_of_toNat_eq
    simp [Nat.shiftRight_eq_div_pow]
  rw [h1, h2]

/-- Two lists of stores with the same members, one value for each address, leave the same memory. -/
theorem Memory.writeCells_congr {m : Memory} (hm : m.wf = true) {cs ds : List Host.Cell} (hb : ∀ c ∈ cs, c.1 < 4294967296)
    (hmem : ∀ c, c ∈ cs ↔ c ∈ ds) (hone : ∀ c ∈ cs, ∀ d ∈ cs, c.1 = d.1 → c.2 = d.2) :
    m.writeCells cs = m.writeCells ds := by
  have hb' : ∀ c ∈ ds, c.1 < 4294967296 := fun c hc => hb c ((hmem c).2 hc)
  apply Memory.ext_read (Memory.wf_writeCells hm hb) (Memory.wf_writeCells hm hb')
  intro a
  by_cases h : ∃ c ∈ cs, c.1 = a
  · obtain ⟨⟨a', v⟩, hc, rfl⟩ := h
    rw [Memory.read_writeCells_same hm hb (fun d hd g => hone d hd _ hc g) hc,
      Memory.read_writeCells_same hm hb' (fun d hd g => hone d ((hmem d).2 hd) _ hc g) ((hmem _).1 hc)]
  · rw [Memory.read_writeCells_other fun c hc g => h ⟨c, hc, g⟩,
      Memory.read_writeCells_other fun c hc g => h ⟨c, (hmem c).2 hc, g⟩]

end Sys2Proof.Machine
end

