-- ==== Sys2Proof/Laws/Decode.lean ====
section
/-! SUPPORT. The fields of a command word as quotient and remainder of its value, and the decoder as one chain of cases over them. -/

namespace Sys2Proof

/-- `op` is the quotient by 2^24 (R91). -/
theorem opField_eq (w : Word) : opField w = w.toNat / 16777216 := by
  simp only [opField, BitVec.extractLsb'_toNat, Nat.shiftRight_eq_div_pow]
  omega

/-- `imm24` is the remainder by 2^24 (R91). -/
theorem immField_eq (w : Word) : immField w = w.toNat % 16777216 := by
  simp [immField, BitVec.extractLsb'_toNat]

/-- The value of an encoded command: `(op << 24) | n` (R99). -/
theorem encode_toNat (i : Instr) : (encode i).toNat = (opcode i).toNat * 16777216 + i.operand.getD 0 % 16777216 := by
  unfold encode
  rw [BitVec.toNat_append, ← Nat.shiftLeft_add_eq_or_of_lt, Nat.shiftLeft_eq]
  · simp
  · simp only [BitVec.toNat_ofNat]
    omega

/-- The decoder, opcode by opcode (R93, R99). -/
theorem decode_eq (w : Word) : decode w =
    if w.toNat / 16777216 = 0x01 then decodePlain (w.toNat % 16777216) .init
    else if w.toNat / 16777216 = 0x02 then .ok (.initq (w.toNat % 16777216))
    else if w.toNat / 16777216 = 0x10 then .ok (.qset (w.toNat % 16777216))
    else if w.toNat / 16777216 = 0x11 then decodePlain (w.toNat % 16777216) .qget
    else if w.toNat / 16777216 = 0x12 then .ok (.lset (w.toNat % 16777216))
    else if w.toNat / 16777216 = 0x13 then decodePlain (w.toNat % 16777216) .lget
    else if w.toNat / 16777216 = 0x20 then decodePlain (w.toNat % 16777216) .decf
    else if w.toNat / 16777216 = 0x21 then decodePlain (w.toNat % 16777216) .decr
    else if w.toNat / 16777216 = 0x22 then decodePlain (w.toNat % 16777216) .decdc
    else if w.toNat / 16777216 = 0x23 then decodePlain (w.toNat % 16777216) .seqx
    else .error .unknownOpcode := by
  unfold decode
  rw [opField_eq, immField_eq]
  repeat' split
  all_goals first | rfl | (exfalso; omega) | simp_all

/-- When a command with a reserved immediate is read (R96). -/
theorem decodePlain_eq_ok {n : Nat} {i j : Instr} (h : decodePlain n j = .ok i) : n = 0 ∧ i = j := by
  unfold decodePlain at h
  split at h
  · injection h with h
    exact ⟨by assumption, h.symm⟩
  · exact absurd h (by simp)

end Sys2Proof
end

