-- ==== Sys2Proof/Laws/PerInstr.lean ====
section
/-! SUPPORT. Statements about every command as syntax, one lemma per command. -/

namespace Sys2Proof.Laws.OpcodeField

/-- The two fields of a well-formed command's word are its opcode and its operand, zero where it has none (R91, R92, R99). -/
def Statement (i : Instr) : Prop :=
  i.WellFormed → opField (encode i) = (opcode i).toNat ∧ immField (encode i) = i.operand.getD 0

/-- A command whose operand fits `imm24` has its opcode and its operand in the fields of its word. -/
theorem of_operand {i : Instr} (h : i.operand.getD 0 < 16777216) : Statement i := by
  intro _
  rw [opField_eq, immField_eq, encode_toNat]
  omega

theorem init : Statement .init := of_operand (by decide)
theorem initq (n : Nat) : Statement (.initq n) := fun h => of_operand (of_decide_eq_true h) h
theorem qset (n : Nat) : Statement (.qset n) := fun h => of_operand (of_decide_eq_true h) h
theorem qget : Statement .qget := of_operand (by decide)
theorem lset (n : Nat) : Statement (.lset n) := fun h => of_operand (of_decide_eq_true h) h
theorem lget : Statement .lget := of_operand (by decide)
theorem decf : Statement .decf := of_operand (by decide)
theorem decr : Statement .decr := of_operand (by decide)
theorem decdc : Statement .decdc := of_operand (by decide)
theorem seqx : Statement .seqx := of_operand (by decide)

end Sys2Proof.Laws.OpcodeField
end

