-- ==== Sys2Proof/Laws/Steps.lean ====
section
/-! SUPPORT. What a step can do, said once: by event, by the sequencer, by a lane. -/

namespace Sys2Proof.Machine

/-- A write to CMD (R90). -/
theorem perform_cmd (s : State) (w : Word) :
    s.perform (.write 4 0 w) = if s.busy then .refused .busyRegisterWrite else s.runWord w := rfl

/-- A step is the engine's own or the first event of the script. -/
theorem step_cases {s t : State} (h : step s = .next t) :
    (s.script = [] ∧ s.unscripted Config.sensor = .next t) ∨
      ∃ e rest, s.script = e :: rest ∧ State.perform e { s with script := rest } = .next t := by
  unfold step State.takeEvent at h
  cases hs : s.script with
  | nil => exact .inl ⟨rfl, by simpa [hs] using h⟩
  | cons e rest => exact .inr ⟨e, rest, rfl, by simpa [hs] using h⟩

/-- What the checks of a command in flight can do: raise an error, leave work, or complete the effect. -/
theorem runChecks_cases (p : Profile) (f : InFlight) (s : State) :
    (∃ e, e ≠ .ok ∧ s.runChecks p f = s.raise e) ∨
    (∃ i w, decode f.word = .ok i ∧ (commandOf p i).error s.cfg f.ops = none ∧ workAfterChecks i f.ops s.mem = some w ∧
      s.runChecks p f = { s with inflight := some { f with work := w } }) ∨
    (∃ i, decode f.word = .ok i ∧ (commandOf p i).error s.cfg f.ops = none ∧ workAfterChecks i f.ops s.mem = none ∧
      s.runChecks p f = ((commandOf p i).effect f.ops s).complete) := by
  unfold State.runChecks
  cases hd : decode f.word with
  | error e => exact .inl ⟨_, by decide, rfl⟩
  | ok i =>
    simp only
    cases he : (commandOf p i).error s.cfg f.ops with
    | some e =>
      refine .inl ⟨e, ?_, rfl⟩
      rintro rfl
      exact Command.error_ne_ok he
    | none =>
      simp only
      cases hw : workAfterChecks i f.ops s.mem with
      | some w => exact .inr (.inl ⟨i, w, rfl, he, hw, rfl⟩)
      | none => exact .inr (.inr ⟨i, rfl, he, hw, rfl⟩)

/-- What a step of the sequencer can do. -/
theorem advance_cases {p : Profile} {s t : State} (h : s.advance p = .next t) :
    ∃ f, s.inflight = some f ∧
      ((f.work = .checks ∧ t = s.runChecks p f) ∨ (∃ c v, f.work = .commit c v ∧ t = s.commit p c v) ∨
        ∃ j, f.work = .blocks j [] ∧ t = s.complete) := by
  unfold State.advance at h
  cases hf : s.inflight with
  | none => simp [hf] at h
  | some f =>
    refine ⟨f, rfl, ?_⟩
    simp only [hf] at h
    split at h
    · injection h with h
      exact .inl ⟨by assumption, h.symm⟩
    · injection h with h
      exact .inr (.inl ⟨_, _, by assumption, h.symm⟩)
    · injection h with h
      exact .inr (.inr ⟨_, by assumption, h.symm⟩)
    · simp at h

/-- What a block step does (R187). -/
theorem laneStep_cases {p : Profile} {l : Nat} {b : Block} {s t : State} (h : s.laneStep p l b = .next t) :
    ∃ f job pending, s.inflight = some f ∧ f.work = .blocks job pending ∧ l < s.lanes.toNat ∧ b ∈ pending ∧
      t = { s.storeCells (job.cells p s.qtab f.ops s.mem b) with
        inflight := some { f with work := .blocks job (pending.erase b) } } := by
  unfold State.laneStep at h
  cases hf : s.inflight with
  | none => simp [hf] at h
  | some f =>
    simp only [hf] at h
    split at h
    · rename_i job pending hw
      split at h
      · rename_i hc
        injection h with h
        exact ⟨f, job, pending, rfl, hw, hc.1, hc.2, h.symm⟩
      · simp at h
    · simp at h
    · simp at h

/-- What an engine without a script does: nothing while idle, else one step of its own. -/
theorem unscripted_cases {p : Profile} {s t : State} (h : s.unscripted p = .next t) :
    (s.inflight = none ∧ t = s) ∨ s.advance p = .next t ∨ ∃ b, s.laneStep p 0 b = .next t := by
  unfold State.unscripted at h
  cases hf : s.inflight with
  | none =>
    simp only [hf] at h
    injection h with h
    exact .inl ⟨rfl, h.symm⟩
  | some f =>
    right
    simp only [hf] at h
    split at h
    · exact .inr ⟨_, h⟩
    all_goals exact .inl h

end Sys2Proof.Machine
end

