-- ==== Sys2Proof/Tests/Slice0.lean ====
section
/-! SUPPORT. The model's own tests: the smoke test of WellFormed, words written out from the spec's encodings, the spec's derived
vectors (95_test_vectors.md) under its stub profile S0, and for each statement with hypotheses a state and operands that meet them. -/

open Sys2Proof Sys2Proof.Machine

namespace Sys2Proof.Tests

/-! ## WellFormed -/

theorem test_wellFormed_refuses_wide_operand :
    (Instr.initq 16777216).wellFormed = false ∧ (Instr.qset 16777216).wellFormed = false ∧
      (Instr.lset 16777216).wellFormed = false := by decide

theorem test_wellFormed_accepts :
    (Instr.initq 16777215).wellFormed = true ∧ (Instr.qset 0).wellFormed = true ∧ (Instr.lset 33).wellFormed = true ∧
      Instr.decf.wellFormed = true := by decide

/-! ## Decoding: words written out bit by bit from the format of R91 and the opcodes of R93 (V61 to V75) -/

theorem test_decode_init : decode 0b00000001_000000000000000000000000 = .ok .init := by decide
theorem test_decode_initq : decode 0b00000010_000000000000000001000000 = .ok (.initq 64) := by decide
theorem test_decode_qset : decode 0b00010000_000000000000000001010000 = .ok (.qset 80) := by decide
theorem test_decode_qget : decode 0b00010001_000000000000000000000000 = .ok .qget := by decide
theorem test_decode_lset : decode 0b00010010_111111111111111111111111 = .ok (.lset 16777215) := by decide
theorem test_decode_lget : decode 0b00010011_000000000000000000000000 = .ok .lget := by decide
theorem test_decode_decf : decode 0b00100000_000000000000000000000000 = .ok .decf := by decide
theorem test_decode_decr : decode 0b00100001_000000000000000000000000 = .ok .decr := by decide
theorem test_decode_decdc : decode 0b00100010_000000000000000000000000 = .ok .decdc := by decide
theorem test_decode_seqx : decode 0b00100011_000000000000000000000000 = .ok .seqx := by decide

theorem test_decode_refuses :
    decode 0x00000000 = .error .unknownOpcode ∧ decode 0xFFFFFFFF = .error .unknownOpcode ∧
      decode 0x03000000 = .error .unknownOpcode ∧ decode 0x14000000 = .error .unknownOpcode ∧
      decode 0x24000000 = .error .unknownOpcode ∧ decode 0x20000001 = .error .reservedImmediate ∧
      decode 0x23000001 = .error .reservedImmediate := by decide

theorem test_decodeTableWord : decodeTableWord 32 0x10000040 = some (.qset 64) ∧ decodeTableWord 32 0x20000001 = none := by decide

/-! ## Text of a command and of a value (R101, R103) -/

theorem test_readCommand :
    readCommand "INITQ 64".toList = some (.initq 64) ∧ readCommand "LSET 0x20".toList = some (.lset 32) ∧
      readCommand "SEQX".toList = some .seqx ∧ readCommand "init".toList = none := by decide +kernel

theorem test_commandText : commandText (.lset 8) = "LSET 8" ∧ commandText .decdc = "DECDC" := by decide +kernel

theorem test_readWord :
    readWord "-8".toList = some 0xFFFFFFF8 ∧ readWord "0x1000".toList = some 0x1000 ∧ readWord "260".toList = some 260 ∧
      readWord "4294967296".toList = none := by decide +kernel

/-! ## The stub profile S0 (95_test_vectors.md section 1) and small states -/

/-- `sat_u8`. -/
def satU8 (v : Int) : Pixel := if v < 0 then 0 else if v > 255 then 255 else BitVec.ofInt 8 v

/-- The stub profile S0. -/
def stub : Profile where
  defaultQtab := fun i => BitVec.ofNat 16 (i.val + 1)
  lanesReset := 1
  blockBytes := 128
  unpack := fun b i =>
    have := position_lt i
    b ⟨2 * i.val + 1, by omega⟩ ++ b ⟨2 * i.val, by omega⟩
  itrans := fun c k => satU8 (c k).toInt
  dcmap := fun l q => satU8 (l.toInt * q.toNat)
  blkOff := fun c r n _ => (r * n + c) * 128
  blkOff_disjoint := fun nbx _ c r c' r' hc _ hc' _ hne => Config.raster_disjoint _ nbx c r c' r' hc hc' hne
  seqOffset := fun w h => nbx w.toInt * nby h.toInt * 128
  seqBytes := 4
  seqBytes_range := by decide

/-- Memory that holds the given bytes from an address on, in canonical form. -/
def memAt (a : Nat) (bs : List Byte) : Memory := (cellsAt a bs).filter fun c => !(c.2 == 0)

/-- The 128 bytes of a block with the given levels, as S0 stores them. -/
def levelBytes (f : Nat → Int) : List Byte := (List.range 64).flatMap fun i => leBytes 2 (BitVec.ofInt 16 (f i)).toNat

/-- A ready engine with the default table of S0 and the given thread count, operands and memory. -/
def ready (lanes : Nat) (r : OperandRegs) (m : Memory) : State :=
  { State.reset with cfg := .ready, qtab := qrom stub, lanes := BitVec.ofNat 6 lanes, regs := r, mem := m }

/-- The status after an outcome. -/
def statusOf : Host.Outcome State Fault Refusal → Option Word
  | .next t => some t.status
  | .fault _ => none
  | .refused _ => none

/-- The status after an outcome, and `n` bytes of memory. -/
def statusAndBytes (o : Host.Outcome State Fault Refusal) (a n : Nat) : Option (Word × List Byte) :=
  match o with
  | .next t => some (t.status, t.mem.readBytes a n)
  | .fault _ => none
  | .refused _ => none

/-- The payload of program P2: two blocks and the sequence field. -/
def payload : Memory :=
  memAt 0x1000 (levelBytes (fun i => (i : Int) - 4) ++ levelBytes (fun i => ((i % 7 : Nat) : Int) - 1) ++ [0x2A, 0, 0, 0])

theorem payload_wf : payload.wf = true := by decide +kernel

/-- The operands of program P2: frame 12 by 8, source 0x1000 of 260 bytes. -/
def operands (dst len a b c d : Word) : OperandRegs :=
  { OperandRegs.zero with
    frameW := 12, frameH := 8, srcBase := 0x1000, srcLen := 260, dstBase := dst, dstLen := len, a0 := a, a1 := b, a2 := c, a3 := d }

/-! ## Commands after reset -/

/-- V12i, V18a, V76 and R112 through `step`, by the words the host writes to CMD. -/
theorem test_step_after_reset :
    statusOf (step (State.reset.withFetchWord 32 0x01000000)) = some 0x06 ∧
      statusOf (step (State.reset.withFetchWord 32 0x11000000)) = some 0x32 ∧
      statusOf (step (State.reset.withFetchWord 32 0x12000000)) = some 0x32 ∧
      statusOf (step (State.reset.withFetchWord 32 0x0200000A)) = some 0x12 ∧
      statusOf (step (State.reset.withFetchWord 32 0x23000001)) = some 0x5A := by decide +kernel

/-- A command in flight shows BUSY, and a host write to CMD is then refused (R36, R261). -/
theorem test_issue_shows_busy :
    statusOf (State.reset.issueWord 0x01000000) = some 0x01 ∧
      statusOf ((State.reset.accept 0x01000000).perform (.write 4 0 0x01000000)) = none := by decide +kernel

/-- RESULT is not to be read for the result of SEQX before its DONE (R263, R243); a decode in flight leaves it readable (R42). -/
theorem test_early_result_read :
    (match (State.reset.accept 0x23000000).perform (.read 4 0x08) with
      | .next _ => false
      | .fault _ => false
      | .refused r => r == .earlyResultRead) = true ∧
      (match ({ State.reset with result := 42 }.accept 0x20000000).perform (.read 4 0x08) with
        | .next t => t.observed == [.register 0x08 42]
        | .fault _ => false
        | .refused _ => false) = true := by decide +kernel

/-- V75, V83: an illegal word sets FAULT, and INIT leaves it set. -/
theorem test_fault_is_sticky : statusOf (exec .init State.reset.illegal) = some 0x0E ∧ State.reset.illegal.status = 0x5A := by
  decide +kernel

/-! ## Clamp and table commands (V1 to V12i) -/

theorem test_clamp :
    clamp16 (-1) = 0 ∧ clamp16 0 = 0 ∧ clamp16 1000 = 1000 ∧ clamp16 65535 = 65535 ∧ clamp16 65536 = 65535 ∧
      clamp16 2147483647 = 65535 ∧ clamp16 (-2147483648) = 0 ∧ clamp16 32768 = 32768 := by decide +kernel

/-- The first source bytes of program P1, step 5. -/
def source : Memory := memAt 0x1000 [0xFF, 0xFF, 0xFF, 0xFF, 0, 0, 1, 0, 0xE8, 3, 0, 0, 0xFF, 0xFF, 0xFF, 0x7F]

theorem test_qset_clamps :
    (match exec (.qset 64) (ready 1 { OperandRegs.zero with srcBase := 0x1000, srcLen := 256 } source) with
      | .next t => (t.status, t.qtab[0], t.qtab[1], t.qtab[2], t.qtab[3]) == (0x06, 0, 65535, 1000, 65535)
      | .fault _ => false
      | .refused _ => false) = true := by decide +kernel

/-- V10, V12, V12a to V12c. -/
theorem test_qset_checks :
    statusOf (exec (.qset 80) (ready 1 { OperandRegs.zero with srcLen := 256 } [])) = some 0x16 ∧
      statusOf (exec (.qset 10) (ready 1 OperandRegs.zero [])) = some 0x16 ∧
      statusOf (exec (.qset 64) (ready 1 { OperandRegs.zero with srcLen := 255 } [])) = some 0x4E ∧
      statusOf (exec (.qset 64) (ready 1 { OperandRegs.zero with srcBase := 0xFFFFFF00, srcLen := 0x200 } [])) = some 0x4E ∧
      statusOf (exec (.qset 64) (ready 1 { OperandRegs.zero with srcBase := 0xFFFFFF00, srcLen := 0x100 } [])) = some 0x06 := by
  decide +kernel

/-- V12d, V12e, V12f; the table of S0 is what INIT loads (V12g). -/
theorem test_initq_and_init :
    statusOf (execWith stub (.initq 64) { State.reset with regs := { OperandRegs.zero with srcLen := 256 } }) = some 0x06 ∧
      statusOf (execWith stub (.initq 80) (ready 7 OperandRegs.zero [])) = some 0x16 ∧
      (match execWith stub .init (ready 7 OperandRegs.zero []) with
        | .next t => (t.lanes, t.qtab[0], t.qtab[63]) == (1, 1, 64)
        | .fault _ => false
        | .refused _ => false) = true := by decide +kernel

/-- P1 step 4, and V12h. -/
theorem test_qget :
    statusAndBytes (exec .qget (ready 1 { OperandRegs.zero with dstBase := 0x2000, dstLen := 128 } [])) 0x207E 4 =
        some (0x06, [0x40, 0, 0, 0]) ∧
      statusAndBytes (exec .qget (ready 1 { OperandRegs.zero with dstBase := 0x2000, dstLen := 127 } [])) 0x2000 2 =
        some (0x4E, [0, 0]) := by decide +kernel

/-! ## Thread count (V13 to V18) -/

theorem test_lset :
    (match exec (.lset 32) (ready 4 OperandRegs.zero []) with
      | .next t => (t.status, t.lanes) == (0x06, 32)
      | .fault _ => false
      | .refused _ => false) = true ∧
      (match exec (.lset 33) (ready 4 OperandRegs.zero []) with
      | .next t => (t.status, t.lanes) == (0x16, 4)
      | .fault _ => false
      | .refused _ => false) = true ∧
      statusOf (exec (.lset 0) (ready 4 OperandRegs.zero [])) = some 0x16 := by decide +kernel

theorem test_lget :
    (match exec .lget (ready 4 OperandRegs.zero []) with
      | .next t => (t.status, t.result, t.resultHi) == (0x06, 4, 0)
      | .fault _ => false
      | .refused _ => false) = true := by decide +kernel

/-! ## Geometry (R170, V19 to V50) -/

theorem test_valid_roi :
    (Region.mk 0 0 20 12).valid 20 12 = true ∧ (Region.mk 8 8 12 4).valid 20 12 = true ∧
      (Region.mk 4 0 8 8).valid 20 12 = false ∧ (Region.mk 8 0 13 12).valid 20 12 = false ∧
      (Region.mk 0 0 0 8).valid 20 12 = false ∧ (Region.mk (-8) 0 8 8).valid 20 12 = false ∧
      (Region.mk 16 8 2147483647 2147483647).valid 20 12 = false := by decide +kernel

theorem test_grid :
    (lineBytes 1246, nbx 1246, nby 1008) = (1248, 156, 126) ∧ (nbx 4, nbx 5, nbx 8, nbx 9) = (1, 1, 1, 2) ∧
      (lineBytes 2147483647, nbx 2147483647) = (2147483648, 268435456) ∧ nbx 0 = 0 := by decide +kernel

theorem test_covered_blocks :
    (Region.mk 8 8 12 4).blocks = [⟨1, 1⟩, ⟨2, 1⟩] ∧ (Region.mk 16 8 4 4).blocks = [⟨2, 1⟩] ∧
      (Region.mk 0 0 9 9).blocks = [⟨0, 0⟩, ⟨1, 0⟩, ⟨0, 1⟩, ⟨1, 1⟩] := by decide +kernel

theorem test_valid_dc :
    (DcRegion.mk 0 0 3 2).valid 20 12 = true ∧ (DcRegion.mk 2 1 1 1).valid 20 12 = true ∧
      (DcRegion.mk 0 0 0 1).valid 20 12 = false ∧ (DcRegion.mk 0 0 4 1).valid 20 12 = false ∧
      (DcRegion.mk 2 0 2 1).valid 20 12 = false ∧ (DcRegion.mk (-1) 0 1 1).valid 20 12 = false ∧
      (DcRegion.mk 0 0 1 1).valid 0 12 = false := by decide +kernel

/-- V51, V52, V55, V56. -/
theorem test_deq :
    (deqProduct 3 10).toInt = 30 ∧ (deqProduct (-3) 10).toInt = -30 ∧ (deqProduct 32767 65535).toInt = 2147385345 ∧
      (deqProduct (-32768) 65535).toInt = -2147450880 := by decide +kernel

/-! ## Decoding under S0 (program P2) -/

/-- P2 step 4: the first two rows of image F. -/
theorem test_decf :
    statusAndBytes (execWith stub .decf (ready 1 (operands 0x2000 96 0 0 0 0) payload)) 0x2000 24 =
      some (0x06, [0, 0, 0, 0, 0, 0x06, 0x0E, 0x18, 0, 0, 0x03, 0x08,
        0x24, 0x32, 0x42, 0x54, 0x68, 0x7E, 0x96, 0xB0, 0, 0x0A, 0x16, 0x24]) := by decide +kernel

/-- P2 step 5: image R. -/
theorem test_decr :
    statusAndBytes (execWith stub .decr (ready 32 (operands 0x3000 32 8 0 4 8) payload)) 0x3000 32 =
      some (0x06, [0, 0, 0x03, 0x08, 0, 0x0A, 0x16, 0x24, 0x11, 0x24, 0x39, 0x50, 0x32, 0x4E, 0x6C, 0x8C,
        0x63, 0x88, 0xAF, 0, 0xA4, 0xD2, 0, 0, 0xF5, 0, 0, 0x34, 0, 0, 0x3B, 0x78]) := by decide +kernel

/-- V77 to V82. -/
theorem test_decode_checks :
    statusOf (execWith stub .decr (ready 1 (operands 0x2000 0 4 0 8 8) [])) = some 0x26 ∧
      statusOf (execWith stub .decr (ready 1 (operands 0x2000 0 0 0 8 8) [])) = some 0x4E ∧
      statusOf (execWith stub .decr (ready 1 { operands 0x2000 64 0 0 8 8 with srcLen := 128 } [])) = some 0x06 ∧
      statusOf (execWith stub .decr (ready 1 { operands 0x2000 63 0 0 8 8 with srcLen := 128 } [])) = some 0x4E ∧
      statusOf (execWith stub .decr (ready 1 { operands 0x1040 64 0 0 8 8 with srcLen := 128 } [])) = some 0x4E ∧
      statusOf (execWith stub .decr (ready 1 { operands 0x1080 64 0 0 8 8 with srcLen := 128 } [])) = some 0x06 := by
  decide +kernel

/-- Level 0 of the blocks of program P3 (frame 20 by 12), the other levels zero. -/
def dcPayload : Memory :=
  memAt 0x10000 ([5, -7, 100, 300, 0, 12].flatMap fun d => leBytes 2 (BitVec.ofInt 16 d).toNat ++ List.replicate 126 0)

/-- The operands of program P3. -/
def dcOperands (len a b c d : Word) : OperandRegs :=
  { OperandRegs.zero with
    frameW := 20, frameH := 12, srcBase := 0x10000, srcLen := 772, dstBase := 0x20000, dstLen := len
    a0 := a, a1 := b, a2 := c, a3 := d }

/-- P3 step 4, with table entry 0 equal to 2. -/
theorem test_decdc :
    statusAndBytes
        (execWith stub .decdc { ready 1 (dcOperands 6 1 0 2 2) dcPayload with qtab := Vector.replicate 64 2 }) 0x20000 5 =
      some (0x06, [0, 0xC8, 0, 0x18, 0]) := by decide +kernel

/-- P3 steps 5, 9, 10 and 12. -/
theorem test_decdc_checks :
    statusOf (execWith stub .decdc (ready 1 (dcOperands 6 0 0 0 1) [])) = some 0x26 ∧
      statusOf (execWith stub .decdc (ready 1 (dcOperands 6 2 0 2 1) [])) = some 0x26 ∧
      statusOf (execWith stub .decdc (ready 1 (dcOperands 6 0xFFFFFFFF 0 1 1) [])) = some 0x26 ∧
      statusOf (execWith stub .decdc (ready 1 (dcOperands 3 1 0 2 2) [])) = some 0x4E := by decide +kernel

/-- P4 steps 5 and 7. -/
theorem test_seqx :
    (match execWith stub .seqx (ready 1 (operands 0 0 0 0 0 0) payload) with
      | .next t => (t.status, t.result, t.resultHi) == (0x06, 42, 0)
      | .fault _ => false
      | .refused _ => false) = true ∧
      statusOf (execWith stub .seqx (ready 1 { operands 0 0 0 0 0 0 with frameW := 20, frameH := 12 } payload)) = some 0x4E := by
  decide +kernel

/-- P3 step 4 by two lanes, the last block first (R187, R207). -/
theorem test_lanes :
    statusAndBytes
        (State.laneRun stub 0x22000000 [(1, ⟨2, 1⟩), (0, ⟨1, 1⟩), (1, ⟨2, 0⟩), (0, ⟨1, 0⟩)]
          { ready 2 (dcOperands 6 1 0 2 2) dcPayload with qtab := Vector.replicate 64 2 }) 0x20000 5 =
      some (0x06, [0, 0xC8, 0, 0x18, 0]) := by decide +kernel

/-! ## Witnesses: for each statement with hypotheses, a state and operands that meet them -/

theorem witness_DecodeOfEncodeIsIdentity : (Instr.initq 16777215).WellFormed ∧ Instr.seqx.WellFormed := by decide

theorem witness_EncodeOfDecodeIsIdentity : decode 0x02FFFFFF = .ok (.initq 16777215) := by decide

theorem witness_UndefinedOpcodeCompletesIllegal :
    State.reset.Idle ∧
      (0x24000000 : Word).toNat / 16777216 ∉ [0x01, 0x02, 0x10, 0x11, 0x12, 0x13, 0x20, 0x21, 0x22, 0x23] := by
  unfold State.Idle
  decide

theorem witness_ReservedImmediateCompletesIllegal :
    State.reset.Idle ∧ (0x23000001 : Word).toNat / 16777216 ∈ [0x01, 0x11, 0x13, 0x20, 0x21, 0x22, 0x23] ∧
      (0x23000001 : Word).toNat % 16777216 ≠ 0 := by
  unfold State.Idle
  decide

theorem witness_OpcodeRowsSelectTheirCommands :
    ⟨"INITQ", 0x02000000, 0xFF000000⟩ ∈ opcodeTable ∧
      (OpcodeRow.mk "INITQ" 0x02000000 0xFF000000).selects 0x02FFFFFF = true ∧
      ∀ r ∈ opcodeTable, r.selects 0x20000001 = false := by decide

/-- An idle engine with one event to come. -/
def scripted (e : Event) : State := { State.reset with script := [e] }

theorem witness_StepRunsTheCommandWrittenToCmd :
    (scripted (.write 4 0 0x20000000)).script = .write 4 0 0x20000000 :: [] ∧
      (scripted (.write 4 0 0x20000000)).busy = false ∧ decode 0x20000000 = .ok .decf ∧
      decode 0xFFFFFFFF = .error .unknownOpcode := by decide

theorem witness_IdleEngineHoldsItsState : State.reset.script = [] ∧ State.reset.inflight = none := by decide

/-- An engine with a command in flight whose source window is one byte at 16 and whose destination window is one byte at 32. -/
def inFlight (w : Word) : State :=
  State.accept w { State.reset with regs := { OperandRegs.zero with srcBase := 16, srcLen := 1, dstBase := 32, dstLen := 1 } }

theorem witness_BusyRegisterWriteIsRefused : (inFlight 0x01000000).busy = true := by decide

/-- Both clauses at the edges of the windows: a store of two bytes that reaches into one, and one that ends just before it. -/
theorem witness_BusyWindowStoreIsRefused :
    ∃ f, (inFlight 0x01000000).inflight = some f ∧ (31 : Word).toNat + 2 ≤ 4294967296 ∧
      (∃ k, k < 2 ∧ (f.ops.src.covers ((31 : Word).toNat + k) = true ∨ f.ops.dst.covers ((31 : Word).toNat + k) = true)) ∧
      (∀ k, k < 2 → f.ops.src.covers ((30 : Word).toNat + k) = false ∧ f.ops.dst.covers ((30 : Word).toNat + k) = false) :=
  ⟨_, rfl, by decide, by decide, by decide⟩

theorem witness_OperandRegistersReadBackUnaliased : State.reset.busy = false ∧ (0x38 : Nat) ≠ OperandReg.a3.offset := by decide

theorem witness_ReadOnlyOffsetsIgnoreWrites :
    (0x0C % 4 = 0 ∧ (0x0C = 0x04 ∨ 0x0C = 0x08 ∨ 0x0C = 0x0C ∨ (0x38 ≤ 0x0C ∧ 0x0C ≤ 0xFC))) ∧
      (0xFC % 4 = 0 ∧ (0x38 ≤ 0xFC ∧ 0xFC ≤ 0xFC)) ∧ (0x38 ≤ 0x38) := by decide

/-- A command in flight whose word decodes to neither LGET nor SEQX gives no result. -/
theorem not_resultInFlight {w : Word} (h : decode w ≠ .ok .lget ∧ decode w ≠ .ok .seqx) : ¬(inFlight w).ResultInFlight := by
  rintro ⟨f, hf, hd⟩
  cases hf
  exact hd.elim h.1 h.2

/-- The last offset; RESULT_HI while a decode is in flight; a write to an operand register. -/
theorem witness_RegisterReadsHaveNoSideEffect :
    (252 % 4 = 0 ∧ 252 < 256 ∧ ¬((252 = 0x08 ∨ 252 = 0x0C) ∧ State.reset.ResultInFlight)) ∧
      (0x0C % 4 = 0 ∧ 0x0C < 256 ∧ ¬((0x0C = 0x08 ∨ 0x0C = 0x0C) ∧ (inFlight 0x20000000).ResultInFlight)) ∧
      0x34 ≠ 0 ∧ ∃ t, State.reset.perform (.write 4 0x34 7) = .next t :=
  ⟨⟨by decide, by decide, by simp⟩, ⟨by decide, by decide, fun h => not_resultInFlight (by decide) h.2⟩, by decide, _, rfl⟩

/-- LGET and SEQX in flight; an idle engine, a decode in flight, an illegal word in flight. -/
theorem witness_ResultReadsGiveTheRegistersUnlessEarly :
    (inFlight 0x13000000).ResultInFlight ∧ (inFlight 0x23000000).ResultInFlight ∧ ¬State.reset.ResultInFlight ∧
      ¬(inFlight 0x20000000).ResultInFlight ∧ ¬(inFlight 0x23000001).ResultInFlight :=
  ⟨⟨_, rfl, by decide⟩, ⟨_, rfl, by decide⟩, fun ⟨_, h, _⟩ => (by cases h), not_resultInFlight (by decide),
    not_resultInFlight (by decide)⟩

theorem witness_MisshapenPortAccessIsRefused : ((2 ≠ 4 ∨ 0 % 4 ≠ 0) ∧ (4 ≠ 4 ∨ 6 % 4 ≠ 0)) := by decide

theorem witness_StatusRegisterLayout : ∃ k : Nat, 8 ≤ k := ⟨8, by decide⟩

/-- The last two bytes of the address space. -/
theorem witness_HostStoreAndLoadAgree :
    State.reset.mem.wf = true ∧ State.reset.inflight = none ∧
      (0xFFFFFFFE : Word).toNat + [(1 : Byte), 2].length ≤ 4294967296 := by decide

theorem witness_ResetLeavesTheStatedState : State.reset.inflight = none := by decide

theorem witness_AbandonedCommandTouchesOnlyItsDestination :
    ∃ f, (inFlight 0x11000000).inflight = some f ∧ f.ops.dst.covers 33 = false := ⟨_, rfl, by decide⟩

theorem witness_ClampSaturates : ((-1 : Int) < 0 ∨ 65535 < (-1 : Int)) ∧ ((65536 : Int) < 0 ∨ 65535 < (65536 : Int)) := by
  decide

theorem witness_InitConstructsWithTheDefaultTable : (0x01000000 : Word).toNat / 16777216 = 0x01 := by decide

/-- A source window of 256 bytes that ends at the top of the address space, and one of 255 bytes (V12a, V12c). -/
theorem witness_InitqConstructsWithTheImage :
    (0x02000040 : Word).toNat / 16777216 = 0x02 ∧ 63 ≠ 64 ∧ ¬WindowHolds 0 255 256 ∧ WindowHolds 0xFFFFFF00 0x100 256 := by
  decide

theorem witness_QsetReplacesTheTable :
    (0x10000040 : Word).toNat / 16777216 = 0x10 ∧ State.reset.cfg = .unconfigured ∧ 80 ≠ 64 ∧
      (ready 1 OperandRegs.zero []).cfg = .ready ∧ ¬WindowHolds 0xFFFFFF00 0x200 256 ∧ WindowHolds 0xFFFFFF00 0x100 256 := by
  decide

theorem witness_FailedTableCommandKeepsTheTable :
    (∃ t, exec (.qset 80) (ready 1 OperandRegs.zero []) = .next t ∧ t.err ≠ .ok) ∧
      ∃ t, exec (.initq 10) State.reset = .next t ∧ t.err ≠ .ok :=
  ⟨⟨_, rfl, by decide⟩, _, rfl, by decide⟩

theorem witness_TableCommitIsOneTransition :
    (ready 1 { OperandRegs.zero with srcLen := 256 } []).Idle ∧ decode 0x10000040 = .ok (.qset 64) ∧
      decode 0x02000040 = .ok (.initq 64) ∧
      (commandOf stub (.qset 64)).error .ready { OperandRegs.zero with srcLen := 256 } = none ∧
      (commandOf stub (.initq 64)).error .ready { OperandRegs.zero with srcLen := 256 } = none := by
  unfold State.Idle
  decide

theorem witness_QgetWritesTheTable :
    (0x11000000 : Word).toNat / 16777216 = 0x11 ∧ State.reset.cfg = .unconfigured ∧
      (ready 1 OperandRegs.zero []).cfg = .ready ∧ (ready 1 OperandRegs.zero []).mem.wf = true ∧
      ¬WindowHolds 0x2000 127 128 ∧ WindowHolds 0xFFFFFF80 128 128 := by decide

/-- A table of 64 values of -1, and its read-back over the source window. -/
theorem witness_SetThenGetReturnsTheClampedTable :
    ∃ (s t u : State) (r : OperandRegs), s.mem.wf = true ∧ exec (.qset 64) s = .next t ∧ t.err = .ok ∧
      exec .qget { t with regs := r } = .next u ∧ u.err = .ok ∧ imageValue s 0 < 0 :=
  ⟨ready 1 { OperandRegs.zero with srcBase := 0x1000, srcLen := 256 } (memAt 0x1000 [0xFF, 0xFF, 0xFF, 0xFF]), _, _,
    { OperandRegs.zero with dstBase := 0x1000, dstLen := 128 }, by decide, rfl, rfl, rfl, rfl, by decide⟩

theorem witness_LsetSetsTheThreadCount :
    (0x12000001 : Word).toNat / 16777216 = 0x12 ∧ State.reset.cfg = .unconfigured ∧
      (ready 1 OperandRegs.zero []).cfg = .ready ∧ (0 < 1 ∨ 32 < 0) ∧ (33 < 1 ∨ 32 < 33) ∧ (1 ≤ 1 ∧ 1 ≤ 32) ∧
      (1 ≤ 32 ∧ 32 ≤ 32) := by decide

theorem witness_LgetReadsTheThreadCount :
    (0x13000000 : Word).toNat / 16777216 = 0x13 ∧ State.reset.cfg = .unconfigured ∧
      (ready 1 OperandRegs.zero []).cfg = .ready := by decide

theorem witness_ValidRegionLiesInTheFrame : (Region.mk 8 8 12 4).valid 20 12 = true := by decide

theorem witness_GridIsTheRoundedUpFrame : (1 ≤ (1 : Int)) ∧ ((0 : Int) ≤ 0) := by decide

theorem witness_CoveredBlocksLieInTheGrid : (Region.mk 16 8 4 4).valid 20 12 = true ∧ 1 ≤ (1 : Int) := by decide

theorem witness_ValidDcRequestLiesInTheGrid : (DcRegion.mk 2 1 1 1).valid 20 12 = true := by decide

theorem witness_DcRequestCoversTheRegion : (Region.mk 8 0 5 3).valid 20 12 = true := by decide

/-- A region that ends at both frame edges, with a destination window of exactly its size. -/
theorem witness_DecrWritesTheRegionImage :
    let s := ready 32 (operands 0x3000 32 8 0 4 8) payload
    (0x21000000 : Word).toNat / 16777216 = 0x21 ∧ s.mem.wf = true ∧ s.cfg = .ready ∧
      s.regs.region.Valid s.regs.width s.regs.height ∧
      AccessOk stub s.regs s.regs.region.Covers (s.regs.region.height.toNat * s.regs.region.width.toNat) := by
  have h : (decodeCommand stub decrJob).error .ready (operands 0x3000 32 8 0 4 8) = none := by decide +kernel
  obtain ⟨-, hv, ha⟩ := decode_error_eq_none_iff.1 h
  rw [Job.outBytes_eq] at ha
  exact ⟨by decide, payload_wf, rfl, hv, (AccessOk.congr fun b => Region.mem_blocks hv).1 ha⟩

theorem witness_DecfWritesTheFullImage :
    let s := ready 1 (operands 0x2000 96 4 4 4 4) payload
    (0x20000000 : Word).toNat / 16777216 = 0x20 ∧ s.mem.wf = true ∧ s.cfg = .ready ∧ 0 < s.regs.width ∧ 0 < s.regs.height ∧
      AccessOk stub s.regs (fun b => b.col < nbx s.regs.width ∧ b.row < nby s.regs.height)
        (s.regs.height.toNat * s.regs.width.toNat) := by
  have h : (decodeCommand stub decfJob).error .ready (operands 0x2000 96 4 4 4 4) = none := by decide +kernel
  obtain ⟨-, hv, ha⟩ := decode_error_eq_none_iff.1 h
  rw [Job.outBytes_eq] at ha
  refine ⟨by decide, payload_wf, rfl, by decide, by decide, (AccessOk.congr fun b => ?_).1 ha⟩
  show b ∈ (operands 0x2000 96 4 4 4 4).fullRegion.blocks ↔ b.col < 2 ∧ b.row < 1
  rw [Region.mem_blocks hv]
  simp only [Region.Covers, show (operands 0x2000 96 4 4 4 4).fullRegion = ⟨0, 0, 12, 8⟩ from rfl]
  omega

theorem witness_DecdcWritesTheDcImage :
    let s := ready 1 (dcOperands 4 1 0 2 2) dcPayload
    (0x22000000 : Word).toNat / 16777216 = 0x22 ∧ s.mem.wf = true ∧ s.cfg = .ready ∧
      s.regs.dcRegion.Valid s.regs.width s.regs.height ∧
      AccessOk stub s.regs s.regs.dcRegion.Covers (s.regs.dcRegion.rows.toNat * s.regs.dcRegion.cols.toNat) := by
  have h : (decodeCommand stub decdcJob).error .ready (dcOperands 4 1 0 2 2) = none := by decide +kernel
  obtain ⟨-, hv, ha⟩ := decode_error_eq_none_iff.1 h
  rw [Job.outBytes_eq] at ha
  exact ⟨by decide, by decide +kernel, rfl, hv, (AccessOk.congr fun b => DcRegion.mem_blocks hv).1 ha⟩

/-- Every clause: an engine that is not ready, a frame of width 0, a misaligned origin, a count of 0, and for each of the three
commands valid geometry with an empty destination window, which fails the access check under every profile. -/
theorem witness_DecodeErrorsChangeStatusOnly :
    State.reset.cfg = .unconfigured ∧ Instr.decdc ∈ [Instr.decf, .decr, .decdc] ∧
      (ready 1 OperandRegs.zero []).cfg = .ready ∧ ¬(0 < OperandRegs.zero.width ∧ 0 < OperandRegs.zero.height) ∧
      (operands 0 0 4 0 8 8).region.valid 12 8 = false ∧ (dcOperands 6 0 0 0 1).dcRegion.valid 20 12 = false ∧
      (0 < (operands 0 0 0 0 8 8).width ∧ 0 < (operands 0 0 0 0 8 8).height) ∧
      (operands 0 0 0 0 8 8).region.valid 12 8 = true ∧ (dcOperands 0 0 0 1 1).dcRegion.valid 20 12 = true ∧
      (∀ covered, ¬AccessOk Config.sensor (operands 0 0 0 0 8 8) covered (8 * 8)) ∧
      ∀ covered, ¬AccessOk Config.sensor (dcOperands 0 0 0 1 1) covered (1 * 1) :=
  ⟨by decide, by decide, rfl, by decide, by decide, by decide, by decide, by decide, by decide,
    fun _ h => absurd h.2.1.1 (by decide), fun _ h => absurd h.2.1.1 (by decide)⟩

/-- The two decodes of program P2, from one state into different destination windows. -/
theorem witness_RegionDecodeIsACropOfTheFullDecode :
    ∃ (s t u : State) (r : OperandRegs), s.mem.wf = true ∧ r.frameW = s.regs.frameW ∧ r.frameH = s.regs.frameH ∧
      r.srcBase = s.regs.srcBase ∧ r.srcLen = s.regs.srcLen ∧ execWith stub .decf s = .next t ∧ t.err = .ok ∧
      execWith stub .decr { s with regs := r } = .next u ∧ u.err = .ok ∧
      (0 : Int) < r.region.height ∧ (3 : Int) < r.region.width := by
  have h1 : (commandOf stub .decf).error .ready (operands 0x2000 96 0 0 0 0) = none := by decide +kernel
  have h2 : (commandOf stub .decr).error .ready (operands 0x3000 32 8 0 4 8) = none := by decide +kernel
  refine ⟨ready 1 (operands 0x2000 96 0 0 0 0) payload, _, _, operands 0x3000 32 8 0 4 8, payload_wf, rfl, rfl, rfl, rfl,
    by rw [execWith_eq, Command.apply_of_none h1], rfl, by rw [execWith_eq, Command.apply_of_none h2], rfl, by decide, by decide⟩

theorem witness_ExplicitFullRegionIsTheFullDecode :
    (operands 0 0 0 0 12 8).a0 = 0 ∧ (operands 0 0 0 0 12 8).a1 = 0 ∧
      (operands 0 0 0 0 12 8).a2 = (operands 0 0 0 0 12 8).frameW ∧
      (operands 0 0 0 0 12 8).a3 = (operands 0 0 0 0 12 8).frameH := by decide

theorem witness_ThreadCountDoesNotAffectDecodes : ∃ t, exec .decr (ready 1 (operands 0x3000 32 8 0 4 8) payload) = .next t :=
  exec_total _ _

/-- Two lanes, the last block first. -/
theorem witness_EveryScheduleGivesTheAtomicResult :
    let s := ready 2 (operands 0x2000 96 0 0 0 0) payload
    let schedule : List (Nat × Block) := [(1, ⟨1, 0⟩), (0, ⟨0, 0⟩)]
    s.Idle ∧ s.mem.wf = true ∧ decode 0x20000000 = .ok .decf ∧ jobOf .decf s.regs = some (decfJob s.regs) ∧
      (commandOf stub .decf).error s.cfg s.regs = none ∧ (schedule.map Prod.snd).Perm (decfJob s.regs).blocks ∧
      ∀ e ∈ schedule, e.1 < s.lanes.toNat :=
  ⟨⟨rfl, rfl⟩, payload_wf, by decide, rfl, by decide +kernel, by decide +kernel, by decide⟩

theorem inFlight_inv (w : Word) : (inFlight w).Inv Config.sensor where
  memory := rfl
  lanes := fun h => by cases h
  busy := rfl
  notBoth := fun h => Bool.false_ne_true h.2
  sticky := fun h => absurd h Bool.false_ne_true
  flight := fun f h => by
    cases h
    exact ⟨rfl, trivial⟩

/-- An illegal word; a command whose check fails (QGET before construction); a command that leaves no work (LGET). -/
theorem witness_CommandsWithoutWorkEndInTheirChecks :
    State.reset.Idle ∧ (∃ e, decode 0x24000000 = .error e) ∧ decode 0x11000000 = .ok .qget ∧
      (∃ e, (commandOf stub .qget).error State.reset.cfg State.reset.regs = some e) ∧
      decode 0x13000000 = .ok .lget ∧ jobOf .lget State.reset.regs = none ∧ (∀ n, Instr.lget ≠ .initq n) ∧
      ∀ n, Instr.lget ≠ .qset n :=
  ⟨⟨rfl, rfl⟩, ⟨_, rfl⟩, by decide, ⟨_, rfl⟩, by decide, rfl, fun _ => by simp, fun _ => by simp⟩

/-- An INITQ 64 in flight that has computed its table and not yet committed it. -/
def committing : State :=
  { inFlight 0x02000040 with inflight := some ⟨0x02000040, (inFlight 0x02000040).regs, .commit true (Vector.replicate 64 7)⟩ }

theorem committing_inv : committing.Inv Config.sensor where
  memory := rfl
  lanes := fun h => by cases h
  busy := rfl
  notBoth := fun h => Bool.false_ne_true h.2
  sticky := fun h => absurd h Bool.false_ne_true
  flight := fun f h => by
    cases h
    exact ⟨rfl, by decide, fun h => by cases h⟩

theorem witness_CommandsInFlightComplete :
    (inFlight 0x20000000).Inv Config.sensor ∧ (inFlight 0x20000000).script = [] ∧ (inFlight 0x20000000).busy = true :=
  ⟨inFlight_inv _, rfl, rfl⟩

/-- Two tables that agree in entry 0 only. -/
theorem witness_DecdcReadsOnlyEntryZero :
    (Vector.ofFn fun i : Fin 64 => if i = 0 then (1 : Entry) else 9)[0] = (ready 1 (dcOperands 4 1 0 2 2) dcPayload).qtab[0] ∧
      ∃ t, exec .decdc (ready 1 (dcOperands 4 1 0 2 2) dcPayload) = .next t :=
  ⟨by decide +kernel, exec_total _ _⟩

/-- The field of S0 for a frame of two blocks is the last four of 260 bytes (P4 steps 5 and 7). -/
theorem witness_SeqxReadsTheSequenceField :
    (0x23000000 : Word).toNat / 16777216 = 0x23 ∧ State.reset.cfg = .unconfigured ∧
      (ready 1 OperandRegs.zero []).cfg = .ready ∧ ¬WindowHolds 0x1000 259 (stub.seqOffset 12 8 + stub.seqBytes) ∧
      WindowHolds 0x1000 260 (stub.seqOffset 12 8 + stub.seqBytes) := by decide +kernel

theorem witness_SeqxIgnoresTableAndThreadCount : ∃ t, exec .seqx (ready 1 (operands 0 0 0 0 0 0) payload) = .next t :=
  exec_total _ _

theorem witness_CommandsBeforeConstructionFail :
    State.reset.cfg = .unconfigured ∧ Instr.seqx ≠ .init ∧ ∀ n, Instr.seqx ≠ .initq n := ⟨rfl, by decide, fun _ => by simp⟩

theorem witness_ErrorsChangeStatusOnly :
    (∃ t, exec .lget State.reset = .next t ∧ t.err ≠ .ok) ∧ State.reset.Idle ∧ ∃ e, decode 0x24000000 = .error e :=
  ⟨⟨_, rfl, by decide⟩, ⟨rfl, rfl⟩, _, rfl⟩

theorem witness_CommandsRaiseOnlyTheirErrors : ∃ t, exec .init State.reset = .next t := exec_total _ _

theorem witness_FaultStaysSetUntilReset :
    (∃ t, step State.reset.illegal = .next t) ∧ State.reset.illegal.fault = true ∧ (∃ t, exec .lget State.reset = .next t) ∧
      State.reset.Idle ∧ ∃ e, decode 0x24000000 = .error e :=
  ⟨⟨_, rfl⟩, by decide, exec_total _ _, ⟨rfl, rfl⟩, _, rfl⟩

theorem witness_OnlyResetLeavesReady :
    (∃ t, step (ready 1 OperandRegs.zero []) = .next t) ∧ (ready 1 OperandRegs.zero []).cfg = .ready ∧
      (∃ t, exec .init State.reset = .next t ∧ State.reset.cfg = .unconfigured ∧ t.cfg = .ready) ∧
      State.Inv Config.sensor committing ∧ ∃ t, step committing = .next t ∧ committing.cfg = .unconfigured ∧ t.cfg = .ready :=
  ⟨⟨_, rfl⟩, rfl, ⟨_, rfl, rfl, rfl⟩, committing_inv, _, rfl, rfl, rfl⟩

theorem witness_EngineNeverWritesOperandRegisters :
    (∃ t, step State.reset = .next t) ∧ ∃ t, step (scripted (.write 4 0x34 7)) = .next t ∧ t.regs.a3 = 7 :=
  ⟨⟨_, rfl⟩, _, rfl, rfl⟩

theorem witness_FrameOfCommandsThatStoreNothing :
    jobOf .seqx OperandRegs.zero = none ∧ Instr.seqx ≠ .qget ∧ ∃ t, exec .seqx State.reset = .next t :=
  ⟨rfl, by decide, exec_total _ _⟩

/-- QGET at the top of the address space, completed. -/
theorem witness_FrameOfCommandsThatStore :
    ∃ t, exec .qget (ready 1 { OperandRegs.zero with dstBase := 0xFFFFFF80, dstLen := 128 } []) = .next t ∧ t.err = .ok :=
  ⟨_, rfl, rfl⟩

theorem witness_CommandsWriteOnlyTheDestinationWindow :
    (∃ t, exec .qget (ready 1 { OperandRegs.zero with dstBase := 16, dstLen := 128 } []) = .next t ∧ t.err = .ok) ∧
      { OperandRegs.zero with dstBase := 16, dstLen := 128 }.dst.covers 15 = false ∧
      { OperandRegs.zero with dstBase := 16, dstLen := 128 }.dst.covers 144 = false :=
  ⟨⟨_, rfl, rfl⟩, by decide, by decide⟩

/-- Two memories that differ in the byte just above the source window of a QSET. -/
theorem witness_CommandsReadOnlyTheSourceWindow :
    let s := ready 1 { OperandRegs.zero with srcBase := 0, srcLen := 256 } []
    let m : Memory := [(256, 1)]
    s.mem.wf = true ∧ m.wf = true ∧ (∀ a, s.regs.src.covers a = true → m.read a = s.mem.read a) ∧
      (∃ t, exec (.qset 64) s = .next t ∧ t.err = .ok) ∧ ∃ t, exec (.qset 64) { s with mem := m } = .next t := by
  refine ⟨rfl, by decide, fun a h => ?_, ⟨_, rfl, rfl⟩, exec_total _ _⟩
  have := (Window.covers_iff.1 h).2
  show Memory.read [(256, 1)] a = 0
  rw [Memory.read, if_neg (by simp only [ready, OperandRegs.src] at this; exact Nat.ne_of_lt this)]
  rfl

theorem witness_EveryStepKeepsTheInvariant :
    (inFlight 0x01000000).Inv Config.sensor ∧ ∃ t, step (inFlight 0x01000000) = .next t ∧ t.cfg = .ready :=
  ⟨inFlight_inv _, _, rfl, rfl⟩

end Sys2Proof.Tests
end

section
/-! SUPPORT. The first engine step after acceptance (43_decode.md R187): what the checks do in each case, and what of the acceptance
a completion leaves behind. -/

namespace Sys2Proof.Machine

/-! ## The step of the checks, case by case -/

/-- The first engine step after acceptance is the step of the checks, on the operands of the acceptance (R29, R187). -/
theorem advance_accept (p : Profile) (s : State) (w : Word) :
    (s.accept w).advance p = .next ((s.accept w).runChecks p ⟨w, s.regs, .checks⟩) := rfl

/-- R95, R96: a word that spells no command ends in IllegalCommand. -/
theorem runChecks_of_decode_error {p : Profile} (f : InFlight) {s : State} {e : DecodeError} (hd : decode f.word = .error e) :
    s.runChecks p f = s.raise .illegalCommand := by
  simp only [State.runChecks, hd, State.illegal]

/-- R110 steps 2 to 5: a failed check ends the command. -/
theorem runChecks_of_error {p : Profile} (f : InFlight) {s : State} {i : Instr} {e : Err} (hd : decode f.word = .ok i)
    (he : (commandOf p i).error s.cfg f.ops = some e) : s.runChecks p f = s.raise e := by
  simp only [State.runChecks, hd, he]

/-- R110 step 6, for a command that leaves no work: the effect comes with the checks. -/
theorem runChecks_of_noWork {p : Profile} (f : InFlight) {s : State} {i : Instr} (hd : decode f.word = .ok i)
    (he : (commandOf p i).error s.cfg f.ops = none) (hw : workAfterChecks i f.ops s.mem = none) :
    s.runChecks p f = ((commandOf p i).effect f.ops s).complete := by
  simp only [State.runChecks, hd, he, hw]

/-- The commands that leave no work are those without block work and without a table to commit. -/
theorem workAfterChecks_eq_none_iff {i : Instr} {ops : OperandRegs} {m : Memory} :
    workAfterChecks i ops m = none ↔ jobOf i ops = none ∧ (∀ n, i ≠ .initq n) ∧ ∀ n, i ≠ .qset n := by
  cases i <;> simp [workAfterChecks, jobOf]

/-! ## Completion after acceptance -/

/-- Acceptance changes BUSY, DONE and the command in flight only, and an error overwrites all three. -/
@[simp] theorem State.raise_accept (s : State) (w : Word) (e : Err) : (s.accept w).raise e = s.raise e := rfl

/-- An effect does not look at what acceptance changes, and the completion overwrites it. -/
theorem complete_effect_accept (p : Profile) (i : Instr) (ops : OperandRegs) (s : State) (w : Word) :
    ((commandOf p i).effect ops (s.accept w)).complete = ((commandOf p i).effect ops s).complete := by
  cases i <;> rfl

/-! ## The first engine step is the atomic transition -/

theorem advance_accept_of_decode_error {p : Profile} {s : State} {w : Word} {e : DecodeError} (hd : decode w = .error e) :
    (s.accept w).advance p = .next (s.raise .illegalCommand) := by
  rw [advance_accept, runChecks_of_decode_error ⟨w, s.regs, .checks⟩ hd, State.raise_accept]

theorem advance_accept_of_error {p : Profile} {s : State} {w : Word} {i : Instr} {e : Err} (hd : decode w = .ok i)
    (he : (commandOf p i).error s.cfg s.regs = some e) : (s.accept w).advance p = execWith p i s := by
  rw [advance_accept, runChecks_of_error (s := s.accept w) ⟨w, s.regs, .checks⟩ hd he, State.raise_accept, execWith_eq,
    Command.apply_of_error he]

theorem advance_accept_of_noWork {p : Profile} {s : State} {w : Word} {i : Instr} (hd : decode w = .ok i)
    (he : (commandOf p i).error s.cfg s.regs = none) (hw : workAfterChecks i s.regs s.mem = none) :
    (s.accept w).advance p = execWith p i s := by
  rw [advance_accept, runChecks_of_noWork (s := s.accept w) ⟨w, s.regs, .checks⟩ hd he hw, complete_effect_accept, execWith_eq,
    Command.apply_of_none he]

/-- Settles O60, by the three ways the checks can end a command: an illegal word, a failed check, no work left. -/
theorem commandsWithoutWorkEndInTheirChecks : Obligations.CommandsWithoutWorkEndInTheirChecks := by
  intro p s w _
  refine ⟨fun _ hd => advance_accept_of_decode_error hd, fun i hd h => ?_⟩
  cases he : (commandOf p i).error s.cfg s.regs with
  | some e => exact advance_accept_of_error hd he
  | none =>
    have noWork := h.resolve_left fun ⟨_, he'⟩ => nomatch he.symm.trans he'
    exact advance_accept_of_noWork hd he (workAfterChecks_eq_none_iff.2 noWork)

end Sys2Proof.Machine
end

section
/-! SUPPORT. The register port by the name of the register (10_state.md R43): which offset names which register, what a write and a
read of each does. -/

namespace Sys2Proof.Machine

/-! ## Offsets and names -/

@[simp] theorem portRegAt_offset (r : OperandReg) : portRegAt r.offset = .operand r := by cases r <;> rfl

theorem eq_zero_of_portRegAt_eq_cmd {o : Nat} (h : portRegAt o = .cmd) : o = 0 := by
  unfold portRegAt at h
  split at h
  · rfl
  all_goals cases h

theorem eq_offset_of_portRegAt_eq_operand {o : Nat} {r : OperandReg} (h : portRegAt o = .operand r) : o = r.offset := by
  unfold portRegAt at h
  split at h <;> cases h <;> rfl

theorem portRegAt_of_le {o : Nat} (h : 0x38 ≤ o) : portRegAt o = .reserved := by
  unfold portRegAt
  split
  case h_15 => rfl
  all_goals omega

theorem portAccessOk_iff {bytes o : Nat} : portAccessOk bytes o = true ↔ bytes = 4 ∧ o % 4 = 0 ∧ o < 256 := by
  simp [portAccessOk, and_assoc]

theorem portAccessOk_offset (r : OperandReg) : portAccessOk 4 r.offset = true := by cases r <;> rfl

/-! ## Operand registers -/

/-- Read after write, both cases (R28, R32). -/
theorem OperandRegs.get_set (g : OperandRegs) (r r' : OperandReg) (v : Word) :
    (g.set r v).get r' = if r' = r then v else g.get r' := by
  cases r <;> cases r' <;> rfl

@[simp] theorem OperandRegs.get_zero (r : OperandReg) : OperandRegs.zero.get r = 0 := by cases r <;> rfl

@[simp] theorem State.status_setRegs (s : State) (g : OperandRegs) : (s.setRegs g).status = s.status := rfl

/-! ## Writes and reads -/

theorem perform_write_of_accessOk {o : Nat} (h : portAccessOk 4 o = true) (v : Word) (s : State) :
    s.perform (.write 4 o v) = s.portWrite o v := by
  simp only [State.perform, h, if_true]

/-- R28: an operand register takes the value while BUSY = 0. -/
theorem perform_write_operand {s : State} (hb : s.busy = false) (r : OperandReg) (v : Word) :
    s.perform (.write 4 r.offset v) = .next (s.setRegs (s.regs.set r v)) := by
  rw [perform_write_of_accessOk (portAccessOk_offset r)]
  simp [State.portWrite, hb]

/-- What a register write that has a meaning does: to CMD it runs the word, to an operand register it sets it, and any other register
ignores it. -/
theorem portWrite_cases {o : Nat} {v : Word} {s t : State} (h : s.portWrite o v = .next t) :
    (o = 0 ∧ s.busy = false ∧ s.runWord v = .next t) ∨
    (∃ r : OperandReg, o = r.offset ∧ s.busy = false ∧ t = s.setRegs (s.regs.set r v)) ∨ t = s := by
  unfold State.portWrite at h
  split at h
  case h_1 ho =>
    split at h
    case isTrue => cases h
    case isFalse hb => exact .inl ⟨eq_zero_of_portRegAt_eq_cmd ho, Bool.eq_false_iff.2 hb, h⟩
  case h_2 r ho =>
    split at h
    case isTrue => cases h
    case isFalse hb =>
      cases h
      exact .inr (.inl ⟨r, eq_offset_of_portRegAt_eq_operand ho, Bool.eq_false_iff.2 hb, rfl⟩)
  all_goals
    cases h
    exact .inr (.inr rfl)

/-- R32: a write to an operand register shows at no other offset. -/
theorem portValue_setRegs_set {s : State} {r : OperandReg} {o : Nat} (ho : o ≠ r.offset) (v : Word) :
    (s.setRegs (s.regs.set r v)).portValue o = s.portValue o := by
  unfold State.portValue
  cases hreg : portRegAt o with
  | operand r' =>
    have hne : r' ≠ r := fun e => ho (e ▸ eq_offset_of_portRegAt_eq_operand hreg)
    exact (OperandRegs.get_set _ _ _ _).trans (if_neg hne)
  | cmd | status | result | resultHi | reserved => rfl

theorem portValue_operand (s : State) (r : OperandReg) : s.portValue r.offset = s.regs.get r := by
  simp [State.portValue]

/-- Settles O11, by the equation of an operand write and the reads of the record of registers. -/
theorem operandRegistersReadBackUnaliased : Obligations.OperandRegistersReadBackUnaliased := by
  intro s r v hb
  refine ⟨_, perform_write_operand hb r v, ?_, fun o ho => portValue_setRegs_set ho v, rfl⟩
  rw [portValue_operand, State.setRegs_regs, OperandRegs.get_set, if_pos rfl]

/-- The aligned offsets of the block that hold neither CMD nor an operand register ignore writes (R35, R42, R43). -/
theorem portWrite_readOnly {o : Nat} (h : o = 0x04 ∨ o = 0x08 ∨ o = 0x0C ∨ 0x38 ≤ o) (v : Word) (s : State) :
    s.portWrite o v = .next s := by
  rcases h with rfl | rfl | rfl | h
  · rfl
  · rfl
  · rfl
  · simp only [State.portWrite, portRegAt_of_le h]

/-- R41, R43: CMD and the reserved offsets read 0. -/
theorem portValue_cmd_or_reserved {o : Nat} (h : o = 0 ∨ 0x38 ≤ o) (s : State) : s.portValue o = 0 := by
  rcases h with rfl | h
  · rfl
  · simp only [State.portValue, portRegAt_of_le h]

/-- Settles O12, by the registers the offsets name. -/
theorem readOnlyOffsetsIgnoreWrites : Obligations.ReadOnlyOffsetsIgnoreWrites := by
  refine ⟨fun s o v h4 h => ?_, fun s o h => portValue_cmd_or_reserved h s⟩
  rw [perform_write_of_accessOk (portAccessOk_iff.2 ⟨rfl, h4, by omega⟩)]
  exact portWrite_readOnly (by omega) v s

/-! ## STATUS -/

theorem State.getLsbD_status_zero (s : State) : s.status.getLsbD 0 = s.busy := by
  simp only [State.status, BitVec.getLsbD_append]
  simp

theorem State.getLsbD_status_one (s : State) : s.status.getLsbD 1 = s.done := by
  simp only [State.status, BitVec.getLsbD_append]
  simp

theorem State.getLsbD_status_two (s : State) : s.status.getLsbD 2 = s.ready := by
  simp only [State.status, BitVec.getLsbD_append]
  simp

theorem State.getLsbD_status_three (s : State) : s.status.getLsbD 3 = s.fault := by
  simp only [State.status, BitVec.getLsbD_append]
  simp

/-- Above its four flags STATUS is ERR, and zero above that (R35). -/
theorem State.getLsbD_status_add_four (s : State) (k : Nat) : s.status.getLsbD (k + 4) = s.err.code.getLsbD k := by
  simp only [State.status, BitVec.getLsbD_append]
  simpa using BitVec.lt_of_getLsbD

theorem State.ready_eq_decide (s : State) : s.ready = decide (s.cfg = .ready) := by
  cases h : s.cfg <;> simp [State.ready, h]

/-- ERR stands in bits 7 to 4 of STATUS (R35). -/
theorem State.extractLsb'_status (s : State) : s.status.extractLsb' 4 4 = s.err.code := by
  ext k hk
  rw [BitVec.getElem_extractLsb', Nat.add_comm, State.getLsbD_status_add_four, BitVec.getLsbD_eq_getElem hk]

/-- STATUS is zero when its five fields are (R50). -/
theorem State.status_eq_zero {s : State} (hcfg : s.cfg = .unconfigured) (hb : s.busy = false) (hd : s.done = false)
    (hf : s.fault = false) (he : s.err = .ok) : s.status = 0 := by
  simp only [State.status, State.ready, hcfg, hb, hd, hf, he]
  decide

theorem State.getLsbD_status_of_le (s : State) {k : Nat} (hk : 8 ≤ k) : s.status.getLsbD k = false := by
  obtain ⟨j, rfl⟩ := Nat.exists_eq_add_of_le' hk
  rw [show j + 8 = j + 4 + 4 from rfl, State.getLsbD_status_add_four]
  exact BitVec.getLsbD_of_ge _ _ (Nat.le_add_left ..)

/-- Settles O15, by the bits of STATUS; a write to STATUS is one to a read-only register. -/
theorem statusRegisterLayout : Obligations.StatusRegisterLayout := by
  refine ⟨fun s => ⟨s.getLsbD_status_zero, s.getLsbD_status_one, ?_, s.getLsbD_status_three, ?_,
    fun k hk => s.getLsbD_status_of_le hk, fun v => ?_⟩, State.status_eq_zero rfl rfl rfl rfl rfl⟩
  · rw [State.getLsbD_status_two, State.ready_eq_decide]
  · rw [State.extractLsb'_status]
    cases s.err <;> rfl
  · rw [perform_write_of_accessOk rfl]
    exact portWrite_readOnly (.inl rfl) v s

/-! ## RESULT and RESULT_HI -/

theorem writesResult_iff {i : Instr} : writesResult i = true ↔ i = .lget ∨ i = .seqx := by
  cases i <;> simp [writesResult]

/-- The model's test for a result still to come is the statement's (R263). -/
theorem State.resultPending_iff {s : State} : s.resultPending = true ↔ s.ResultInFlight := by
  unfold State.resultPending State.ResultInFlight
  cases s.inflight with
  | none => simp
  | some f => cases hd : decode f.word <;> simp [hd, writesResult_iff]

/-- R42, R263: a read of either result register is refused while the result is pending, and is an observation otherwise. -/
theorem perform_read_result {o : Nat} (h : o = 0x08 ∨ o = 0x0C) (s : State) : s.perform (.read 4 o) =
    if s.resultPending then .refused .earlyResultRead else .next (s.observe (.register o (s.portValue o))) := by
  rcases h with rfl | rfl <;> rfl

/-- Settles O59, by the two branches of a read of a result register. -/
theorem resultReadsGiveTheRegistersUnlessEarly : Obligations.ResultReadsGiveTheRegistersUnlessEarly := by
  intro s
  rw [perform_read_result (.inl rfl), perform_read_result (.inr rfl), ← State.resultPending_iff]
  constructor
  · intro h
    rw [if_pos h, if_pos h]
    exact ⟨rfl, rfl⟩
  · intro h
    rw [if_neg h, if_neg h]
    exact ⟨rfl, rfl⟩

/-! ## Reset -/

theorem State.memAfterReset_of_idle {s : State} (h : s.inflight = none) (p : Profile) : s.memAfterReset p = s.mem := by
  simp only [State.memAfterReset, h]

theorem State.status_resetEvent (s : State) (p : Profile) : (s.resetEvent p).status = 0 :=
  State.status_eq_zero rfl rfl rfl rfl rfl

/-- Settles O17, field by field; memory stays because no command was abandoned. -/
theorem resetLeavesTheStatedState : Obligations.ResetLeavesTheStatedState := by
  constructor
  · intro s hs
    exact ⟨s.resetEvent Config.sensor, rfl, rfl, s.status_resetEvent _, rfl, rfl, OperandRegs.get_zero,
      State.memAfterReset_of_idle hs _, rfl⟩
  · exact ⟨rfl, State.status_eq_zero rfl rfl rfl rfl rfl, rfl, rfl, OperandRegs.get_zero⟩

end Sys2Proof.Machine
end

section
/-! SUPPORT. What a transition can be, said once: how a command ends, what the engine does in one step, what an event does. Every fact
about all steps is a short case analysis over these three. -/

namespace Sys2Proof.Machine

/-! ## How a command ends -/

/-- How the word `w` on the operands `ops` ends in one transition: with an error, or with its effect (R95, R110). -/
inductive Ends (p : Profile) (w : Word) (ops : OperandRegs) (s : State) : State → Prop
  | error (e : Err) : Ends p w ops s (s.raise e)
  | effect (i : Instr) : decode w = .ok i → (commandOf p i).error s.cfg ops = none →
      Ends p w ops s ((commandOf p i).effect ops s).complete

/-- R99: the host's write of a word to CMD, at the atomic level. -/
theorem ends_of_runWord {w : Word} {s t : State} (h : s.runWord w = .next t) : Ends Config.sensor w s.regs s t := by
  unfold State.runWord at h
  split at h
  case h_1 i hd =>
    obtain ⟨e, -, rfl⟩ | ⟨he, rfl⟩ := exec_cases h
    · exact .error e
    · exact .effect i hd he
  case h_2 =>
    cases h
    exact .error .illegalCommand

/-! ## What the engine does -/

/-- One step of the engine on the command in flight: its checks end it or leave work, a table is committed, block work is complete, or
a block step writes its bytes (R110, R118, R187). -/
inductive EngineStep (p : Profile) (s : State) (f : InFlight) : State → Prop
  | ends {t : State} : f.work = .checks → Ends p f.word f.ops s t → EngineStep p s f t
  | leaves (i : Instr) (w : Work) : f.work = .checks → decode f.word = .ok i →
      (commandOf p i).error s.cfg f.ops = none → workAfterChecks i f.ops s.mem = some w →
      EngineStep p s f { s with inflight := some { f with work := w } }
  | commit (constructs : Bool) (t : Table) : f.work = .commit constructs t → EngineStep p s f (s.commit p constructs t)
  | complete (job : Job) : f.work = .blocks job [] → EngineStep p s f s.complete
  | block (l : Nat) (b : Block) (job : Job) (pending : List Block) : f.work = .blocks job pending →
      l < s.lanes.toNat → b ∈ pending →
      EngineStep p s f { s.storeCells (job.cells p s.qtab f.ops s.mem b) with
        inflight := some { f with work := .blocks job (pending.erase b) } }

theorem engineStep_runChecks {p : Profile} {s : State} {f : InFlight} (hw : f.work = .checks) :
    EngineStep p s f (s.runChecks p f) := by
  obtain ⟨e, -, h⟩ | ⟨i, w, hd, he, hleft, h⟩ | ⟨i, hd, he, -, h⟩ := runChecks_cases p f s
  · exact h ▸ .ends hw (.error e)
  · exact h ▸ .leaves i w hw hd he hleft
  · exact h ▸ .ends hw (.effect i hd he)

theorem engineStep_of_advance {p : Profile} {s t : State} (h : s.advance p = .next t) :
    ∃ f, s.inflight = some f ∧ EngineStep p s f t := by
  obtain ⟨f, hf, ⟨hw, rfl⟩ | ⟨c, v, hw, rfl⟩ | ⟨j, hw, rfl⟩⟩ := advance_cases h
  · exact ⟨f, hf, engineStep_runChecks hw⟩
  · exact ⟨f, hf, .commit c v hw⟩
  · exact ⟨f, hf, .complete j hw⟩

theorem engineStep_of_laneStep {p : Profile} {l : Nat} {b : Block} {s t : State} (h : s.laneStep p l b = .next t) :
    ∃ f, s.inflight = some f ∧ EngineStep p s f t := by
  obtain ⟨f, job, pending, hf, hw, hl, hb, rfl⟩ := laneStep_cases h
  exact ⟨f, hf, .block l b job pending hw hl hb⟩

/-! ## What an event does -/

/-- What an event that has a meaning does (R103, R187, R272). -/
inductive Performed (s : State) : Event → State → Prop
  | command (w : Word) {t : State} : s.busy = false → Ends Config.sensor w s.regs s t → Performed s (.write 4 0 w) t
  | operand (r : OperandReg) (v : Word) : s.busy = false →
      Performed s (.write 4 r.offset v) (s.setRegs (s.regs.set r v))
  | ignored (bytes o : Nat) (v : Word) : Performed s (.write bytes o v) s
  | read (o : Nat) : s.readsEarly o = false → Performed s (.read 4 o) (s.observe (.register o (s.portValue o)))
  | store (a : Word) (data : List Byte) : a.toNat + data.length ≤ 4294967296 →
      Performed s (.store a data) (s.storeCells (cellsAt a.toNat data))
  | dump (a : Word) (n : Nat) (data : List Byte) : Performed s (.dump a n) (s.observe (.memory a data)).nextTick
  | reset : Performed s .reset (s.resetEvent Config.sensor)
  | issue (w : Word) : s.busy = false → Performed s (.issue w) (s.accept w)
  | engine (e : Event) {f : InFlight} {t : State} : s.inflight = some f → EngineStep Config.sensor s f t → Performed s e t

theorem performed_of_write {bytes o : Nat} {v : Word} {s t : State} (h : s.perform (.write bytes o v) = .next t) :
    Performed s (.write bytes o v) t := by
  simp only [State.perform] at h
  split at h
  case isFalse => cases h
  case isTrue hok =>
    obtain ⟨rfl, -, -⟩ := portAccessOk_iff.1 hok
    obtain ⟨rfl, hb, hrun⟩ | ⟨r, rfl, hb, rfl⟩ | rfl := portWrite_cases h
    · exact .command v hb (ends_of_runWord hrun)
    · exact .operand r v hb
    · exact .ignored 4 o v

theorem performed_of_read {bytes o : Nat} {s t : State} (h : s.perform (.read bytes o) = .next t) :
    Performed s (.read bytes o) t := by
  simp only [State.perform, State.portRead] at h
  split at h
  case isFalse => cases h
  case isTrue hok =>
    obtain ⟨rfl, -, -⟩ := portAccessOk_iff.1 hok
    split at h
    case isTrue => cases h
    case isFalse hearly =>
      cases h
      exact .read o (Bool.eq_false_iff.2 hearly)

theorem performed_of_store {a : Word} {data : List Byte} {s t : State} (h : s.perform (.store a data) = .next t) :
    Performed s (.store a data) t := by
  simp only [State.perform, State.hostStore] at h
  split at h
  case isFalse => cases h
  case isTrue hin =>
    have hend : a.toNat + data.length ≤ 4294967296 := of_decide_eq_true hin
    split at h
    · cases h
      exact .store a data hend
    · split at h <;> cases h
      exact .store a data hend

theorem performed_of_dump {a : Word} {n : Nat} {s t : State} (h : s.perform (.dump a n) = .next t) :
    Performed s (.dump a n) t := by
  simp only [State.perform, State.hostLoad] at h
  split at h <;> cases h
  exact .dump a n _

theorem performed_of_issue {w : Word} {s t : State} (h : s.perform (.issue w) = .next t) : Performed s (.issue w) t := by
  simp only [State.perform, State.issueWord] at h
  split at h
  case isTrue => cases h
  case isFalse hb =>
    cases h
    exact .issue w (Bool.eq_false_iff.2 hb)

/-- What an event can do. -/
theorem performed_of_perform {e : Event} {s t : State} (h : s.perform e = .next t) : Performed s e t := by
  cases e with
  | write bytes o v => exact performed_of_write h
  | read bytes o => exact performed_of_read h
  | store a data => exact performed_of_store h
  | dump a n => exact performed_of_dump h
  | reset =>
    cases h
    exact .reset
  | issue w => exact performed_of_issue h
  | advance =>
    obtain ⟨f, hf, hstep⟩ := engineStep_of_advance h
    exact .engine _ hf hstep
  | lane l b =>
    obtain ⟨f, hf, hstep⟩ := engineStep_of_laneStep h
    exact .engine _ hf hstep

/-- What a step can do: nothing, a step of the engine of its own, or the first event of the script. -/
theorem step_performs {s t : State} (h : step s = .next t) :
    t = s ∨ (∃ f, s.inflight = some f ∧ EngineStep Config.sensor s f t) ∨
      ∃ e rest, s.script = e :: rest ∧ Performed { s with script := rest } e t := by
  obtain ⟨-, h⟩ | ⟨e, rest, hs, h⟩ := step_cases h
  · obtain ⟨-, rfl⟩ | h | ⟨b, h⟩ := unscripted_cases h
    · exact .inl rfl
    · exact .inr (.inl (engineStep_of_advance h))
    · exact .inr (.inl (engineStep_of_laneStep h))
  · exact .inr (.inr ⟨e, rest, hs, performed_of_perform h⟩)

end Sys2Proof.Machine
end

section
/-! SUPPORT. What every transition but a reset keeps: FAULT and CFG = Ready once they are set, and but for a host write the operand
registers (10_state.md R26, R27, R38); and which commands make an engine ready. -/

namespace Sys2Proof.Machine

/-! ## What a transition keeps -/

/-- From `s` to `t` FAULT stays set (R38) and a ready engine stays ready (R26). -/
structure State.Keeps (s t : State) : Prop where
  fault : s.fault = true → t.fault = true
  ready : s.cfg = .ready → t.cfg = .ready

/-- A transition that leaves FAULT and CFG as they are keeps both. -/
theorem State.Keeps.of_eq {s t : State} (hfault : t.fault = s.fault) (hcfg : t.cfg = s.cfg) : s.Keeps t where
  fault := fun h => hfault.trans h
  ready := fun h => hcfg.trans h

theorem State.keeps_raise (s : State) (e : Err) : s.Keeps (s.raise e) where
  fault := fun h => by simp [h]
  ready := id

/-- No effect leaves Ready: those of INIT and INITQ set it, the others do not touch CFG (R237). -/
theorem effect_cfg (p : Profile) (i : Instr) (ops : OperandRegs) (s : State) :
    ((commandOf p i).effect ops s).cfg = match i with | .init | .initq _ => .ready | _ => s.cfg := by
  cases i <;> rfl

theorem keeps_effect (p : Profile) (i : Instr) (ops : OperandRegs) (s : State) :
    s.Keeps ((commandOf p i).effect ops s).complete where
  fault := fun h => (effect_keeps p i ops s).2.1.trans h
  ready := fun h => by
    rw [State.complete_cfg, effect_cfg]
    split
    · rfl
    · rfl
    · exact h

theorem Ends.keeps {p : Profile} {w : Word} {ops : OperandRegs} {s t : State} (h : Ends p w ops s t) :
    s.Keeps t ∧ t.regs = s.regs := by
  cases h with
  | error e => exact ⟨s.keeps_raise e, rfl⟩
  | effect i => exact ⟨keeps_effect p i ops s, (effect_keeps p i ops s).1⟩

theorem EngineStep.keeps {p : Profile} {s t : State} {f : InFlight} (h : EngineStep p s f t) :
    s.Keeps t ∧ t.regs = s.regs := by
  cases h with
  | ends _ h => exact h.keeps
  | leaves | complete | block => exact ⟨.of_eq rfl rfl, rfl⟩
  | commit constructs =>
    cases constructs with
    | false => exact ⟨.of_eq rfl rfl, rfl⟩
    | true => exact ⟨⟨id, fun _ => rfl⟩, rfl⟩

theorem Performed.keeps {e : Event} {s t : State} (h : Performed s e t) : s.Keeps t ∨ e = .reset := by
  cases h with
  | command _ _ h => exact .inl h.keeps.1
  | operand | ignored | read | store | dump | issue => exact .inl (.of_eq rfl rfl)
  | reset => exact .inr rfl
  | engine _ _ h => exact .inl h.keeps.1

theorem Performed.regs {e : Event} {s t : State} (h : Performed s e t) :
    t.regs = s.regs ∨ e = .reset ∨ ∃ r v, e = .write 4 (OperandReg.offset r) v ∧ t.regs = s.regs.set r v := by
  cases h with
  | command _ _ h => exact .inl h.keeps.2
  | operand r v => exact .inr (.inr ⟨r, v, rfl, rfl⟩)
  | ignored | read | store | dump | issue => exact .inl rfl
  | reset => exact .inr (.inl rfl)
  | engine _ _ h => exact .inl h.keeps.2

/-- Every step but a reset keeps FAULT and Ready. -/
theorem step_keeps {s t : State} (h : step s = .next t) : s.Keeps t ∨ ∃ rest, s.script = .reset :: rest := by
  obtain rfl | ⟨f, -, h⟩ | ⟨e, rest, hs, h⟩ := step_performs h
  · exact .inl (.of_eq rfl rfl)
  · exact .inl h.keeps.1
  · obtain hkeeps | rfl := h.keeps
    · exact .inl ⟨hkeeps.fault, hkeeps.ready⟩
    · exact .inr ⟨rest, hs⟩

/-- Settles O52, by what a step can do: of the engine's own steps and of the events only reset and an operand write change them. -/
theorem engineNeverWritesOperandRegisters : Obligations.EngineNeverWritesOperandRegisters := by
  intro s t h
  obtain rfl | ⟨f, -, h⟩ | ⟨e, rest, hs, h⟩ := step_performs h
  · exact .inl rfl
  · exact .inl h.keeps.2
  · obtain hregs | rfl | ⟨r, v, rfl, hset⟩ := h.regs
    · exact .inl hregs
    · exact .inr (.inl ⟨rest, hs⟩)
    · exact .inr (.inr ⟨r, v, rest, hs, hset⟩)

/-! ## FAULT -/

/-- Of the errors a command reports, AccessFault alone is sticky (R38, R227). -/
theorem sticky_eq_of_ne_illegal {e : Err} (h : e ≠ .illegalCommand) : e.sticky = decide (e = .accessFault) := by
  cases e with
  | illegalCommand => exact absurd rfl h
  | ok | configError | rangeError | stateError | accessFault => rfl

/-- R38: a command sets FAULT exactly when it reports AccessFault. -/
theorem exec_fault {i : Instr} {s t : State} (h : exec i s = .next t) :
    t.fault = (s.fault || decide (t.err = .accessFault)) := by
  obtain ⟨e, he, rfl⟩ | ⟨-, rfl⟩ := exec_cases h
  · have hne : e ≠ .illegalCommand := fun h => Command.error_ne_illegal (h ▸ he)
    rw [State.raise_fault, State.raise_err, sticky_eq_of_ne_illegal hne]
  · rw [State.complete_fault, State.complete_err, (effect_keeps _ i s.regs s).2.1]
    simp

/-- R95: a word that spells no command, written to CMD of an engine that is not busy, is raised as IllegalCommand. -/
theorem perform_cmd_of_decode_error {s : State} {w : Word} {e : DecodeError} (hb : s.busy = false)
    (hd : decode w = .error e) : s.perform (.write 4 0 w) = .next (s.raise .illegalCommand) := by
  rw [perform_cmd, hb]
  simp only [State.runWord, hd]
  rfl

/-- Settles O50: no transition but reset clears FAULT, and the two sticky codes set it. -/
theorem faultStaysSetUntilReset : Obligations.FaultStaysSetUntilReset := by
  refine ⟨fun s t h hf => ?_, fun _ _ _ h => exec_fault h, fun s w e hidle hd => ?_⟩
  · exact (step_keeps h).imp_left fun hkeeps => hkeeps.fault hf
  · exact ⟨_, perform_cmd_of_decode_error hidle.1 hd, rfl, by simp [Err.sticky]⟩

/-! ## Ready -/

/-- R114: the length that an INITQ admits. -/
theorem eq_64_of_initq_checks {p : Profile} {n : Nat} {cfg : Cfg} {ops : OperandRegs}
    (he : (commandOf p (.initq n)).error cfg ops = none) : n = 64 := by
  obtain ⟨-, hlength, -, -⟩ := Command.error_eq_none_iff.1 he
  exact eq_of_beq hlength

/-- R237: only the effects of INIT and of INITQ 64 make an engine ready. -/
theorem eq_init_or_initq_of_effect_ready {p : Profile} {i : Instr} {cfg : Cfg} {ops : OperandRegs} {s : State}
    (he : (commandOf p i).error cfg ops = none) (hs : s.cfg = .unconfigured)
    (ht : ((commandOf p i).effect ops s).cfg = .ready) : i = .init ∨ i = .initq 64 := by
  rw [effect_cfg] at ht
  split at ht
  case h_1 => exact .inl rfl
  case h_2 n =>
    obtain rfl := eq_64_of_initq_checks he
    exact .inr rfl
  case h_3 => exact absurd (hs.symm.trans ht) (by decide)

/-- The word spells INIT or INITQ 64. -/
def Constructs (w : Word) : Prop := decode w = .ok .init ∨ decode w = .ok (.initq 64)

theorem Ends.constructs {p : Profile} {w : Word} {ops : OperandRegs} {s t : State} (h : Ends p w ops s t)
    (hs : s.cfg = .unconfigured) (ht : t.cfg = .ready) : Constructs w := by
  cases h with
  | error e => exact absurd (hs.symm.trans ht) (by decide)
  | effect i hd he =>
    obtain rfl | rfl := eq_init_or_initq_of_effect_ready he hs ht
    · exact .inl hd
    · exact .inr hd

/-- A commit makes an engine ready only for the word of an INITQ 64, by the invariant of the command in flight. -/
theorem EngineStep.constructs {p : Profile} {s t : State} {f : InFlight} (h : EngineStep p s f t) (hf : f.Inv p s)
    (hs : s.cfg = .unconfigured) (ht : t.cfg = .ready) : Constructs f.word := by
  cases h with
  | ends _ h => exact h.constructs hs ht
  | leaves | complete | block => exact absurd (hs.symm.trans ht) (by decide)
  | commit constructs v hw =>
    cases constructs with
    | false => exact absurd (hs.symm.trans ht) (by decide)
    | true =>
      obtain ⟨-, hwork⟩ := hf
      rw [hw] at hwork
      exact .inr hwork.1

theorem Performed.constructs {e : Event} {s t : State} (h : Performed s e t)
    (hf : ∀ f, s.inflight = some f → f.Inv Config.sensor s) (hs : s.cfg = .unconfigured) (ht : t.cfg = .ready) :
    ∃ w, Constructs w ∧ (e = .write 4 0 w ∨ ∃ f, s.inflight = some f ∧ f.word = w) := by
  cases h with
  | command w _ h => exact ⟨w, h.constructs hs ht, .inl rfl⟩
  | operand | ignored | read | store | dump | issue => exact absurd (hs.symm.trans ht) (by decide)
  | reset => cases ht
  | engine _ hfl h => exact ⟨_, h.constructs (hf _ hfl) hs ht, .inr ⟨_, hfl, rfl⟩⟩

/-- Settles O51: no transition but reset leaves Ready, and by the case analysis of a step only INIT and INITQ 64 reach it. -/
theorem onlyResetLeavesReady : Obligations.OnlyResetLeavesReady := by
  refine ⟨fun s t h hr => ?_, fun i s t h hs ht => ?_, fun s t hinv h hs ht => ?_⟩
  · exact (step_keeps h).imp_left fun hkeeps => hkeeps.ready hr
  · obtain ⟨e, -, rfl⟩ | ⟨he, rfl⟩ := exec_cases h
    · exact absurd (hs.symm.trans ht) (by decide)
    · exact eq_init_or_initq_of_effect_ready he hs ht
  · obtain rfl | ⟨f, hf, h⟩ | ⟨e, rest, hscript, h⟩ := step_performs h
    · exact absurd (hs.symm.trans ht) (by decide)
    · exact ⟨f.word, h.constructs (hinv.flight f hf) hs ht, .inr ⟨f, hf, rfl⟩⟩
    · obtain ⟨w, hw, rfl | hf⟩ := h.constructs hinv.flight hs ht
      · exact ⟨w, hw, .inl ⟨rest, hscript⟩⟩
      · exact ⟨w, hw, .inr hf⟩

end Sys2Proof.Machine
end

section
/-! SUPPORT. The invariant of the machine (10_state.md R25, R36, R38, R44, R47), kept by every step: the bytes a command stores lie in
memory, the thread counts it sets are legal, and the work it leaves has passed its checks. -/

namespace Sys2Proof.Machine

/-! ## What passed checks say -/

/-- A job that passed its access check has its image inside the address space (R67, R182, R205). -/
theorem Job.image_end_le {p : Profile} {j : Job} {ops : OperandRegs} (h : j.accessOk p ops = true) :
    ops.dstBase.toNat + j.outBytes ≤ 4294967296 := by
  simp only [Job.accessOk, Bool.and_eq_true] at h
  obtain ⟨⟨-, hdst⟩, -⟩ := h
  obtain ⟨hlen, hend⟩ := OperandRegs.dst_admits_iff.1 hdst
  omega

/-- What the checks of a decode command say of its block work (R182, R205). -/
theorem checks_of_jobOf {p : Profile} {i : Instr} {cfg : Cfg} {ops : OperandRegs} {job : Job} (hjob : jobOf i ops = some job)
    (he : (commandOf p i).error cfg ops = none) : cfg = .ready ∧ job.rangeOk ops = true ∧ job.accessOk p ops = true := by
  obtain ⟨hready, -, hrange, haccess⟩ := Command.error_eq_none_iff.1 he
  cases i with
  | decf | decr | decdc =>
    cases hjob
    exact ⟨hready rfl, hrange, haccess⟩
  | init | initq | qset | qget | lset | lget | seqx => cases hjob

/-- A command whose checks pass writes inside the address space (R44, R75). -/
theorem writeRange_end_le {p : Profile} {i : Instr} {cfg : Cfg} {ops : OperandRegs}
    (he : (commandOf p i).error cfg ops = none) : (writeRange i ops).1 + (writeRange i ops).2 ≤ 4294967296 := by
  cases i with
  | decf | decr | decdc => exact Job.image_end_le (checks_of_jobOf rfl he).2.2
  | qget =>
    obtain ⟨-, -, -, haccess⟩ := Command.error_eq_none_iff.1 he
    obtain ⟨hlen, hend⟩ := OperandRegs.dst_admits_iff.1 haccess
    simp only [Config.readBackBytes, Config.qn] at hlen
    simp only [writeRange, Config.readBackBytes, Config.qn]
    omega
  | init | initq | qset | lset | lget | seqx => simp [writeRange]

/-- The table read-back stores 128 bytes from the first of the destination window on (R63). -/
theorem readBackCells_range {q : Table} {ops : OperandRegs} {c : Host.Cell} (h : c ∈ readBackCells q ops) :
    ops.dstBase.toNat ≤ c.1 ∧ c.1 < ops.dstBase.toNat + 128 := by
  obtain ⟨i, hc⟩ := mem_readBackCells.1 h
  have hi := position_lt i
  obtain rfl | rfl := hc <;> simp only <;> omega

/-- An effect stores in its write range and nowhere else (R75). -/
theorem effect_mem (p : Profile) (i : Instr) (ops : OperandRegs) (s : State) :
    ∃ cells : List Host.Cell, ((commandOf p i).effect ops s).mem = s.mem.writeCells cells ∧
      ∀ c ∈ cells, (writeRange i ops).1 ≤ c.1 ∧ c.1 < (writeRange i ops).1 + (writeRange i ops).2 := by
  cases i with
  | decf | decr | decdc => exact ⟨_, rfl, fun c hc => Job.allCells_range hc⟩
  | qget => exact ⟨_, rfl, fun c hc => readBackCells_range hc⟩
  | init | initq | qset | lset | lget | seqx => exact ⟨[], rfl, by simp⟩

/-! ## Memory and LANES after an effect -/

theorem wf_effect_mem {p : Profile} {i : Instr} {cfg : Cfg} {ops : OperandRegs} {s : State} (hm : s.mem.wf = true)
    (he : (commandOf p i).error cfg ops = none) : ((commandOf p i).effect ops s).mem.wf = true := by
  obtain ⟨cells, hmem, hrange⟩ := effect_mem p i ops s
  have hend := writeRange_end_le he
  rw [hmem]
  exact Memory.wf_writeCells hm fun c hc => Nat.lt_of_lt_of_le (hrange c hc).2 hend

/-- A thread count that LSET can set or that stands after construction (R25). -/
def LegalLanes (l : BitVec Config.lanesW) : Prop := 1 ≤ l.toNat ∧ l.toNat ≤ 32

theorem legalLanes_ofNat {n : Nat} (h1 : 1 ≤ n) (h32 : n ≤ 32) : LegalLanes (BitVec.ofNat Config.lanesW n) := by
  have h : (BitVec.ofNat Config.lanesW n).toNat = n := by
    rw [BitVec.toNat_ofNat, Nat.mod_eq_of_lt]
    exact Nat.lt_of_le_of_lt h32 (by decide)
  exact ⟨by omega, by omega⟩

theorem legalLanes_lanesReset (p : Profile) : LegalLanes (BitVec.ofNat Config.lanesW p.lanesReset) :=
  legalLanes_ofNat p.lanesReset_range.1 p.lanesReset_range.2

theorem legalLanes_effect {p : Profile} {i : Instr} {ops : OperandRegs} {s : State} (hl : s.cfg = .ready → LegalLanes s.lanes)
    (he : (commandOf p i).error s.cfg ops = none) (ht : ((commandOf p i).effect ops s).cfg = .ready) :
    LegalLanes ((commandOf p i).effect ops s).lanes := by
  cases i with
  | init | initq => exact legalLanes_lanesReset p
  | lset n =>
    obtain ⟨-, hconfig, -, -⟩ := Command.error_eq_none_iff.1 he
    obtain ⟨h1, h32⟩ : 1 ≤ n ∧ n ≤ 32 := by simpa [commandOf, lsetCommand] using hconfig
    exact legalLanes_ofNat h1 h32
  | qset | qget | lget | decf | decr | decdc | seqx => exact hl ht

/-! ## The invariant of the command in flight -/

/-- The work that passed checks leave meets the invariant of a command in flight (R114, R116, R187). -/
theorem flight_inv_of_workAfterChecks {p : Profile} {s t : State} {f : InFlight} {i : Instr} {w : Work} (hregs : f.ops = t.regs)
    (hcfg : t.cfg = s.cfg) (hd : decode f.word = .ok i) (he : (commandOf p i).error s.cfg f.ops = none)
    (hw : workAfterChecks i f.ops s.mem = some w) : InFlight.Inv p t { f with work := w } := by
  refine ⟨hregs, ?_⟩
  cases i with
  | initq n =>
    cases hw
    obtain rfl := eq_64_of_initq_checks he
    exact ⟨hd, fun h => nomatch h⟩
  | qset n =>
    cases hw
    obtain ⟨hready, hlength, -, -⟩ := Command.error_eq_none_iff.1 he
    obtain rfl : n = 64 := eq_of_beq hlength
    exact ⟨hd, fun _ => hcfg.trans (hready rfl)⟩
  | decf | decr | decdc =>
    cases hw
    obtain ⟨hready, hrange, haccess⟩ := checks_of_jobOf rfl he
    exact ⟨⟨_, hd, rfl⟩, hcfg.trans hready, hrange, haccess, List.Sublist.refl _⟩
  | init | qget | lset | lget | seqx => cases hw

/-- A block step leaves fewer blocks of the same work. -/
theorem flight_inv_erase {p : Profile} {s t : State} {f : InFlight} {job : Job} {pending : List Block} (b : Block)
    (hf : f.Inv p s) (hw : f.work = .blocks job pending) (hregs : t.regs = s.regs) (hcfg : t.cfg = s.cfg) :
    InFlight.Inv p t { f with work := .blocks job (pending.erase b) } := by
  obtain ⟨hops, hwork⟩ := hf
  rw [hw] at hwork
  obtain ⟨hword, hready, hrange, haccess, hsub⟩ := hwork
  exact ⟨hops.trans hregs.symm, hword, hcfg.trans hready, hrange, haccess, List.erase_sublist.trans hsub⟩

/-! ## The invariant, operation by operation -/

/-- The parts of the invariant that a completion does not set itself: memory and LANES. -/
theorem State.inv_complete {p : Profile} {s : State} (hm : s.mem.wf = true) (hl : s.cfg = .ready → LegalLanes s.lanes) :
    s.complete.Inv p where
  memory := hm
  lanes := hl
  busy := rfl
  notBoth := fun h => Bool.false_ne_true h.1
  sticky := fun h => absurd h Bool.false_ne_true
  flight := fun _ h => nomatch h

theorem State.Inv.raise {p : Profile} {s : State} (h : s.Inv p) (e : Err) : (s.raise e).Inv p where
  memory := h.memory
  lanes := h.lanes
  busy := rfl
  notBoth := fun h => Bool.false_ne_true h.1
  sticky := fun he => by simp only [State.raise_fault, show e.sticky = true from he, Bool.or_true]
  flight := fun _ h => nomatch h

theorem State.Inv.accept {p : Profile} {s : State} (h : s.Inv p) (w : Word) : (s.accept w).Inv p where
  memory := h.memory
  lanes := h.lanes
  busy := rfl
  notBoth := fun h => Bool.false_ne_true h.2
  sticky := h.sticky
  flight := fun f hf => by
    cases hf
    exact ⟨rfl, trivial⟩

/-- The invariant speaks of the host's side in no part, and of memory in its form only. -/
theorem State.Inv.withHost {p : Profile} {s : State} (h : s.Inv p) {m : Memory} (hm : m.wf = true) (script : List Event)
    (observed : List Observation) (tick : Nat) :
    State.Inv p { s with mem := m, script := script, observed := observed, tick := tick } where
  memory := hm
  lanes := h.lanes
  busy := h.busy
  notBoth := h.notBoth
  sticky := h.sticky
  flight := h.flight

/-- R28, R261: the host writes operand registers while no command is in flight. -/
theorem State.Inv.setRegs {p : Profile} {s : State} (h : s.Inv p) (hb : s.busy = false) (g : OperandRegs) :
    (s.setRegs g).Inv p where
  memory := h.memory
  lanes := h.lanes
  busy := h.busy
  notBoth := h.notBoth
  sticky := h.sticky
  flight := fun f hf => by
    have hbusy := h.busy
    rw [hb, show s.inflight = some f from hf] at hbusy
    cases hbusy

/-- The work of the command in flight may change as long as it meets the invariant. -/
theorem State.Inv.withWork {p : Profile} {s : State} (h : s.Inv p) {f g : InFlight} (hf : s.inflight = some f) {m : Memory}
    (hm : m.wf = true) (hg : g.Inv p s) : State.Inv p { s with mem := m, inflight := some g } where
  memory := hm
  lanes := h.lanes
  busy := h.busy.trans (by rw [hf]; rfl)
  notBoth := h.notBoth
  sticky := h.sticky
  flight := fun f' hf' => by
    cases hf'
    exact hg

/-- The range an abandoned command was going to write lies in the address space (R44, R251). -/
theorem State.plannedRange_end_le (p : Profile) (f : InFlight) (s : State) :
    (s.plannedRange p f).1 + (s.plannedRange p f).2 ≤ 4294967296 := by
  unfold State.plannedRange
  split
  · simp
  · split
    case h_1 => simp
    case h_2 he => exact writeRange_end_le he

theorem State.wf_memAfterReset {p : Profile} {s : State} (hm : s.mem.wf = true) : (s.memAfterReset p).wf = true := by
  unfold State.memAfterReset
  split
  · exact hm
  · rename_i f _
    have hend := s.plannedRange_end_le p f
    refine Memory.wf_writeCells hm fun c hc => ?_
    obtain ⟨k, hk, rfl⟩ := List.mem_map.1 hc
    have := List.mem_range.1 hk
    simp only
    omega

/-- After a reset only memory is left to check. -/
theorem State.inv_resetEvent {p : Profile} {s : State} (hm : s.mem.wf = true) : (s.resetEvent p).Inv p where
  memory := State.wf_memAfterReset hm
  lanes := fun h => nomatch h
  busy := rfl
  notBoth := fun h => Bool.false_ne_true h.1
  sticky := fun h => absurd h Bool.false_ne_true
  flight := fun _ h => nomatch h

/-! ## The invariant, transition by transition -/

theorem Ends.inv {p : Profile} {w : Word} {ops : OperandRegs} {s t : State} (h : Ends p w ops s t) (hs : s.Inv p) : t.Inv p := by
  cases h with
  | error e => exact hs.raise e
  | effect i _ he => exact State.inv_complete (wf_effect_mem hs.memory he) (legalLanes_effect hs.lanes he)

/-- A commit stores no byte, and the thread count of a construction is legal (R118). -/
theorem State.Inv.commit {p : Profile} {s : State} (h : s.Inv p) (constructs : Bool) (t : Table) :
    (s.commit p constructs t).Inv p := by
  cases constructs with
  | true => exact State.inv_complete h.memory fun _ => legalLanes_lanesReset p
  | false => exact State.inv_complete h.memory h.lanes

/-- The bytes of a block step lie in the image of the job, and with it in memory. -/
theorem wf_blockStep {p : Profile} {s : State} {f : InFlight} {job : Job} {pending : List Block} (hm : s.mem.wf = true)
    (hf : f.Inv p s) (hw : f.work = .blocks job pending) (b : Block) :
    (s.mem.writeCells (job.cells p s.qtab f.ops s.mem b)).wf = true := by
  obtain ⟨-, hwork⟩ := hf
  rw [hw] at hwork
  obtain ⟨-, -, -, haccess, -⟩ := hwork
  exact Memory.wf_writeCells hm fun c hc => Nat.lt_of_lt_of_le (Job.cells_range hc).2 (Job.image_end_le haccess)

theorem EngineStep.inv {p : Profile} {s t : State} {f : InFlight} (h : EngineStep p s f t) (hf : s.inflight = some f)
    (hs : s.Inv p) : t.Inv p := by
  have hflight := hs.flight f hf
  cases h with
  | ends _ h => exact h.inv hs
  | leaves i w _ hd he hw =>
    exact hs.withWork hf hs.memory (flight_inv_of_workAfterChecks hflight.1 rfl hd he hw)
  | commit constructs v => exact hs.commit constructs v
  | complete => exact State.inv_complete hs.memory hs.lanes
  | block _ b job pending hw =>
    exact hs.withWork hf (wf_blockStep hs.memory hflight hw b) (flight_inv_erase b hflight hw rfl rfl)

/-- Bytes the host stores inside the address space keep memory in canonical form. -/
theorem wf_hostStore {m : Memory} (hm : m.wf = true) {a : Nat} {data : List Byte} (h : a + data.length ≤ 4294967296) :
    (m.writeCells (cellsAt a data)).wf = true := by
  refine Memory.wf_writeCells hm fun c hc => ?_
  obtain ⟨k, hk, rfl⟩ := mem_cellsAt.1 hc
  simp only
  omega

theorem Performed.inv {e : Event} {s t : State} (h : Performed s e t) (hs : s.Inv Config.sensor) : t.Inv Config.sensor := by
  cases h with
  | command _ _ h => exact h.inv hs
  | operand _ _ hb => exact hs.setRegs hb _
  | ignored => exact hs
  | read | dump => exact hs.withHost hs.memory _ _ _
  | store a data hend => exact hs.withHost (wf_hostStore hs.memory hend) _ _ _
  | reset => exact State.inv_resetEvent hs.memory
  | issue w => exact hs.accept w
  | engine _ hf h => exact h.inv hf hs

/-- Settles O58, by what a step can do: nothing, a step of the engine, or an event, each of which keeps the invariant. -/
theorem everyStepKeepsTheInvariant : Obligations.EveryStepKeepsTheInvariant := by
  intro s t hs h
  obtain rfl | ⟨f, hf, h⟩ | ⟨e, rest, -, h⟩ := step_performs h
  · exact hs
  · exact h.inv hf hs
  · exact h.inv (hs.withHost hs.memory rest _ _)

/-- Settles O57: the state after reset is what the reset event makes of a state with no byte in memory and no free value drawn. -/
theorem resetMeetsTheInvariant : Obligations.ResetMeetsTheInvariant :=
  State.inv_resetEvent (s := { State.reset with tick := 0 }) rfl

end Sys2Proof.Machine
end

section
/-! SUPPORT. The host's accesses (10_state.md R72, R76; 30_encoding.md R103): which register accesses have a meaning, and that a load
by an idle host gives back what it stored (20_memory.md R60, R61). -/

namespace Sys2Proof.Machine

/-! ## Register accesses -/

/-- Settles O14: such an access is no legal one of the register port. -/
theorem misshapenPortAccessIsRefused : Obligations.MisshapenPortAccessIsRefused := by
  intro s bytes o v h
  have hbad : ¬portAccessOk bytes o = true := fun hok => by
    obtain ⟨hbytes, haligned, -⟩ := portAccessOk_iff.1 hok
    omega
  exact ⟨if_neg hbad, if_neg hbad⟩

theorem eq_offset_of_portRegAt_eq_result {o : Nat} (h : portRegAt o = .result ∨ portRegAt o = .resultHi) :
    o = 0x08 ∨ o = 0x0C := by
  unfold portRegAt at h
  split at h
  case h_3 => exact .inl rfl
  case h_4 => exact .inr rfl
  all_goals simp at h

/-- R263: only RESULT and RESULT_HI can be read too early, and only while a command's result is to come. -/
theorem State.resultInFlight_of_readsEarly {s : State} {o : Nat} (h : s.readsEarly o = true) :
    (o = 0x08 ∨ o = 0x0C) ∧ s.ResultInFlight := by
  unfold State.readsEarly at h
  split at h
  case h_1 ho => exact ⟨eq_offset_of_portRegAt_eq_result (.inl ho), State.resultPending_iff.1 h⟩
  case h_2 ho => exact ⟨eq_offset_of_portRegAt_eq_result (.inr ho), State.resultPending_iff.1 h⟩
  all_goals cases h

/-- R76: a register read that is not too early is an observation. -/
theorem perform_read_of_not_readsEarly {s : State} {o : Nat} (hok : portAccessOk 4 o = true) (h : ¬s.readsEarly o = true) :
    s.perform (.read 4 o) = .next (s.observe (.register o (s.portValue o))) := by
  simp only [State.perform, State.portRead, hok, if_true, if_neg h]

/-- Settles O13, by what a register read and a register write can do. -/
theorem registerReadsHaveNoSideEffect : Obligations.RegisterReadsHaveNoSideEffect := by
  constructor
  · intro s o haligned hlt hlate
    have hearly : ¬s.readsEarly o = true := fun h => hlate (State.resultInFlight_of_readsEarly h)
    exact perform_read_of_not_readsEarly (portAccessOk_iff.2 ⟨rfl, haligned, hlt⟩) hearly
  · intro s o v t hcmd h
    simp only [State.perform] at h
    split at h
    case isFalse => cases h
    case isTrue =>
      obtain ⟨rfl, -, -⟩ | ⟨r, -, -, rfl⟩ | rfl := portWrite_cases h
      · exact absurd rfl hcmd
      · rfl
      · rfl

/-! ## Host stores and loads -/

/-- A store to consecutive addresses leaves every byte outside them alone. -/
theorem Memory.read_writeCells_cellsAt_other {m : Memory} {a b : Nat} {data : List Byte} (h : b < a ∨ a + data.length ≤ b) :
    (m.writeCells (cellsAt a data)).read b = m.read b := by
  refine Memory.read_writeCells_other fun c hc => ?_
  obtain ⟨k, hk, rfl⟩ := mem_cellsAt.1 hc
  simp only
  omega

/-- Bytes stored to consecutive addresses stand there in order (R60). -/
theorem Memory.read_writeCells_cellsAt {m : Memory} (hm : m.wf = true) {a : Nat} {data : List Byte}
    (hend : a + data.length ≤ 4294967296) {k : Nat} (hk : k < data.length) :
    (m.writeCells (cellsAt a data)).read (a + k) = data[k] := by
  refine Memory.read_writeCells_same hm ?_ ?_ (mem_cellsAt.2 ⟨k, hk, rfl⟩)
  · intro c hc
    obtain ⟨j, hj, rfl⟩ := mem_cellsAt.1 hc
    simp only
    omega
  · intro c hc hck
    obtain ⟨j, hj, rfl⟩ := mem_cellsAt.1 hc
    obtain rfl : j = k := Nat.add_left_cancel hck
    rfl

theorem perform_store_of_idle {s : State} (hs : s.inflight = none) {a : Word} {data : List Byte}
    (hend : a.toNat + data.length ≤ 4294967296) :
    s.perform (.store a data) = .next (s.storeCells (cellsAt a.toNat data)) := by
  simp only [State.perform, State.hostStore, hs]
  exact if_pos (decide_eq_true hend)

/-- A load by an idle host observes the bytes of memory (R61). -/
theorem perform_dump_of_idle {s : State} (hs : s.inflight = none) {a : Word} {n : Nat} (hend : a.toNat + n ≤ 4294967296) :
    s.perform (.dump a n) =
      .next (s.observe (.memory a ((List.range n).map fun k => s.mem.read (a.toNat + k)))).nextTick := by
  simp only [State.perform, State.hostLoad, State.hostByte, hs]
  exact if_pos (decide_eq_true hend)

/-- Settles O16: the bytes stored stand at their addresses, so the load that follows reads them one by one. -/
theorem hostStoreAndLoadAgree : Obligations.HostStoreAndLoadAgree := by
  intro s a data hm hs hend
  have hdata : ((List.range data.length).map fun k => (s.mem.writeCells (cellsAt a.toNat data)).read (a.toNat + k)) = data := by
    refine List.ext_getElem (by simp) fun k _ hk => ?_
    rw [List.getElem_map, List.getElem_range, Memory.read_writeCells_cellsAt hm hend hk]
  refine ⟨s.storeCells (cellsAt a.toNat data), _, perform_store_of_idle hs hend, rfl,
    fun b hb => Memory.read_writeCells_cellsAt_other hb, perform_dump_of_idle (s := s.storeCells _) hs hend, ?_, rfl⟩
  simp only [State.nextTick_observed, State.observe_observed, State.storeCells_observed, State.storeCells_mem, hdata]

end Sys2Proof.Machine
end

section
/-! SUPPORT. The two windows of a command (20_memory.md R66, R67): what passed checks say of them, that every byte a command stores is
covered by the destination window, and that its outcome depends on the bytes of the source window only. -/

namespace Sys2Proof.Machine

/-! ## The destination window -/

/-- The bytes an access check admits belong to the window. -/
theorem Window.covers_of_admits {w : Window} {a n b : Nat} (h : w.admits a n = true) (hlo : a ≤ b) (hhi : b < a + n) :
    w.covers b = true := by
  obtain ⟨-, hbase, hend⟩ := Window.admits_iff.1 h
  exact Window.covers_iff.2 ⟨by omega, by omega⟩

theorem Job.dst_admits_of_accessOk {p : Profile} {j : Job} {ops : OperandRegs} (h : j.accessOk p ops = true) :
    ops.dst.admits ops.dstBase.toNat j.outBytes = true := by
  simp only [Job.accessOk, Bool.and_eq_true] at h
  obtain ⟨⟨-, hdst⟩, -⟩ := h
  exact hdst

/-- A command whose checks pass writes inside its destination window (R67, R75). -/
theorem dst_covers_of_mem_writeRange {p : Profile} {i : Instr} {cfg : Cfg} {ops : OperandRegs} {a : Nat}
    (he : (commandOf p i).error cfg ops = none) (hlo : (writeRange i ops).1 ≤ a)
    (hhi : a < (writeRange i ops).1 + (writeRange i ops).2) : ops.dst.covers a = true := by
  cases i with
  | decf | decr | decdc =>
    exact Window.covers_of_admits (Job.dst_admits_of_accessOk (checks_of_jobOf rfl he).2.2) hlo hhi
  | qget =>
    obtain ⟨-, -, -, haccess⟩ := Command.error_eq_none_iff.1 he
    exact Window.covers_of_admits haccess hlo hhi
  | init | initq | qset | lset | lget | seqx => exact absurd hhi (Nat.not_lt_zero a)

/-- Settles O55: an error stores nothing, and an effect stores in the write range, which the checks put inside the window. -/
theorem commandsWriteOnlyTheDestinationWindow : Obligations.CommandsWriteOnlyTheDestinationWindow := by
  intro i s t a h hout
  obtain ⟨e, -, rfl⟩ | ⟨he, rfl⟩ := exec_cases h
  · rfl
  · obtain ⟨cells, hmem, hrange⟩ := effect_mem Config.sensor i s.regs s
    rw [State.complete_mem, hmem]
    refine Memory.read_writeCells_other fun c hc hca => ?_
    obtain ⟨hlo, hhi⟩ := hca ▸ hrange c hc
    rw [dst_covers_of_mem_writeRange he hlo hhi] at hout
    cases hout

/-! ## What is read from the source window -/

/-- Two memories hold the same bytes in a window. -/
abbrev Memory.AgreeOn (w : Window) (m n : Memory) : Prop := ∀ a, w.covers a = true → m.read a = n.read a

/-- A run of bytes that an access check admits is the same in both memories. -/
theorem Memory.AgreeOn.readLe {w : Window} {m n : Memory} (h : m.AgreeOn w n) {a k : Nat} (hk : w.admits a k = true) :
    m.readLe a k = n.readLe a k := by
  unfold Memory.readLe
  rw [Memory.readBytes_congr fun j hj => h _ (Window.covers_of_admits hk (by omega) (by omega))]

/-- The table that INITQ and QSET compute is read from the 256 bytes of their access check (R62, R114, R116). -/
theorem clampedTable_congr {ops : OperandRegs} {m n : Memory} (h : m.AgreeOn ops.src n)
    (haccess : ops.src.admits ops.srcBase.toNat (Config.sourceValueBytes * Config.qn) = true) :
    clampedTable m ops = clampedTable n ops := by
  unfold clampedTable
  congr 1
  funext i
  have hi := position_lt i
  obtain ⟨hwf, hbase, hend⟩ := Window.admits_iff.1 haccess
  simp only [Config.sourceValueBytes, Config.qn] at hend
  simp only [sourceValue]
  rw [h.readLe (Window.admits_iff.2 ⟨hwf, by omega, by simp only [Config.sourceValueBytes]; omega⟩)]

/-- Block work reads its covered blocks, which its access check puts inside the source window (R163, R182, R205). -/
theorem Job.allCells_congr {p : Profile} {j : Job} {ops : OperandRegs} {m n : Memory} (q : Table) (h : m.AgreeOn ops.src n)
    (haccess : j.accessOk p ops = true) : j.allCells p q ops m = j.allCells p q ops n := by
  simp only [Job.accessOk, Bool.and_eq_true, List.all_eq_true] at haccess
  obtain ⟨-, hblocks⟩ := haccess
  unfold Job.allCells
  refine List.flatMap_congr fun b hb => Job.cells_congr fun a hlo hhi => ?_
  exact h a (Window.covers_of_admits (hblocks b hb).1 hlo hhi)

/-! ## Where a command stores -/

/-- The read-back of the table stores to its 128 bytes, to each of them (R63). -/
theorem exists_mem_readBackCells_iff {q : Table} {ops : OperandRegs} {a : Nat} :
    (∃ c ∈ readBackCells q ops, c.1 = a) ↔ ops.dstBase.toNat ≤ a ∧ a < ops.dstBase.toNat + 128 := by
  constructor
  · rintro ⟨c, hc, rfl⟩
    exact readBackCells_range hc
  · rintro ⟨hlo, hhi⟩
    have hi : (a - ops.dstBase.toNat) / 2 < 64 := by omega
    obtain heven | hodd := Nat.mod_two_eq_zero_or_one (a - ops.dstBase.toNat)
    · exact ⟨_, mem_readBackCells.2 ⟨⟨_, hi⟩, .inl rfl⟩, by simp only; omega⟩
    · exact ⟨_, mem_readBackCells.2 ⟨⟨_, hi⟩, .inr rfl⟩, by simp only; omega⟩

/-- Valid block work stores to the bytes of its image, to each of them (R183, R204). -/
theorem Job.exists_mem_allCells_iff {p : Profile} {q : Table} {ops : OperandRegs} {m : Memory} {j : Job} (hv : j.Valid ops)
    {a : Nat} : (∃ c ∈ j.allCells p q ops m, c.1 = a) ↔ ops.dstBase.toNat ≤ a ∧ a < ops.dstBase.toNat + j.outBytes := by
  constructor
  · rintro ⟨c, hc, rfl⟩
    exact Job.allCells_range hc
  · rintro ⟨hlo, hhi⟩
    rw [Job.outBytes_eq] at hhi
    have hrow : (a - ops.dstBase.toNat) / j.cols < j.rows := Nat.div_lt_of_lt_mul (by rw [Nat.mul_comm]; omega)
    have hcol : (a - ops.dstBase.toNat) % j.cols < j.cols := Nat.mod_lt _ (Job.dims_pos hv).2
    have hdiv := Nat.div_add_mod' (a - ops.dstBase.toNat) j.cols
    exact ⟨_, (Job.mem_allCells hv).2 ⟨_, _, hrow, hcol, rfl⟩, by simp only; omega⟩

/-- The effect of a command whose checks pass, on two memories that agree on its source window: it stores the same cells, to each
byte of its write range and to no other, and does the same to all other state (R66, R75). -/
theorem effect_of_agreeOn_src {p : Profile} {i : Instr} {s : State} {m : Memory} {ops : OperandRegs}
    (he : (commandOf p i).error s.cfg ops = none) (h : m.AgreeOn ops.src s.mem) :
    ∃ cells : List Host.Cell, ((commandOf p i).effect ops s).mem = s.mem.writeCells cells ∧
      (commandOf p i).effect ops { s with mem := m } = { (commandOf p i).effect ops s with mem := m.writeCells cells } ∧
      ∀ a, (∃ c ∈ cells, c.1 = a) ↔ (writeRange i ops).1 ≤ a ∧ a < (writeRange i ops).1 + (writeRange i ops).2 := by
  obtain ⟨-, -, -, haccess⟩ := Command.error_eq_none_iff.1 he
  cases i with
  | decf | decr | decdc =>
    obtain ⟨-, hrange, haccess⟩ := checks_of_jobOf rfl he
    exact ⟨_, rfl, congrArg (fun cells => { s with mem := m.writeCells cells }) (Job.allCells_congr s.qtab h haccess),
      fun a => Job.exists_mem_allCells_iff (Job.rangeOk_iff.1 hrange)⟩
  | qget => exact ⟨_, rfl, rfl, fun a => exists_mem_readBackCells_iff⟩
  | initq n =>
    exact ⟨[], rfl, congrArg (fun t => State.construct p t { s with mem := m }) (clampedTable_congr h haccess),
      by simp [writeRange]⟩
  | qset n =>
    exact ⟨[], rfl, congrArg (fun t => State.setTable t { s with mem := m }) (clampedTable_congr h haccess),
      by simp [writeRange]⟩
  | seqx =>
    exact ⟨[], rfl, congrArg (fun v => State.setResult (BitVec.ofNat 64 v) { s with mem := m }) (h.readLe haccess),
      by simp [writeRange]⟩
  | init | lset | lget => exact ⟨[], rfl, rfl, by simp [writeRange]⟩

/-- After the same stores two memories read alike wherever they did before or a store went. -/
theorem Memory.read_writeCells_congr {m n : Memory} (hm : m.wf = true) (hn : n.wf = true) {cells : List Host.Cell}
    (hb : ∀ c ∈ cells, c.1 < 4294967296) {a : Nat} (h : (∃ c ∈ cells, c.1 = a) ∨ m.read a = n.read a) :
    (m.writeCells cells).read a = (n.writeCells cells).read a := by
  induction cells generalizing m n with
  | nil => exact h.resolve_left (by simp)
  | cons c cs ih =>
    obtain ⟨hc, hcs⟩ := List.forall_mem_cons.1 hb
    refine ih (Memory.wf_write hm hc _) (Memory.wf_write hn hc _) hcs ?_
    rw [Memory.read_write hm, Memory.read_write hn]
    by_cases hca : a = c.1
    · exact .inr (by rw [if_pos hca, if_pos hca])
    · rw [if_neg hca, if_neg hca]
      refine h.imp_left ?_
      rintro ⟨d, hd, rfl⟩
      exact ⟨d, List.mem_of_ne_of_mem (fun hdc => hca (congrArg Prod.fst hdc)) hd, rfl⟩

/-- Settles O56: the error depends on no memory, and the effects on both memories store the same cells. -/
theorem commandsReadOnlyTheSourceWindow : Obligations.CommandsReadOnlyTheSourceWindow := by
  intro i s t t' m hs hm hagree ht ht'
  rw [exec_eq_apply] at ht ht'
  cases ht
  cases ht'
  cases he : (commandOf Config.sensor i).error s.cfg s.regs with
  | some e =>
    rw [Command.apply_of_error he, Command.apply_of_error (s := { s with mem := m }) he]
    exact ⟨rfl, fun hok => absurd (he.trans (congrArg some hok)) Command.error_ne_ok⟩
  | none =>
    obtain ⟨cells, hmem, heff, hcells⟩ := effect_of_agreeOn_src he hagree
    have hb : ∀ c ∈ cells, c.1 < 4294967296 := fun c hc =>
      Nat.lt_of_lt_of_le ((hcells c.1).1 ⟨c, hc, rfl⟩).2 (writeRange_end_le he)
    rw [Command.apply_of_none he, Command.apply_of_none (s := { s with mem := m }) he, heff]
    refine ⟨rfl, fun _ a hlo hhi => ?_⟩
    rw [State.complete_mem, State.complete_mem, hmem]
    exact Memory.read_writeCells_congr hm hs hb (.inl ((hcells a).2 ⟨hlo, hhi⟩))

end Sys2Proof.Machine
end

section
/-! SUPPORT. Decoder and encoder (30_encoding.md R90 to R102): which words spell a command, stated once over the two fields of a
command word, and the row of the opcode table that each command has. -/

namespace Sys2Proof

/-! ## The words that spell a command -/

/-- An operand that fits `imm24` is below 2^24, and so is the 0 of a command without one (R92). -/
theorem Instr.WellFormed.operand_lt {i : Instr} (h : i.WellFormed) : i.operand.getD 0 < 16777216 := by
  unfold Instr.WellFormed Instr.wellFormed at h
  cases ho : i.operand with
  | none => decide
  | some n =>
    rw [ho] at h
    exact of_decide_eq_true h

/-- The word spells a plain command exactly when its immediate is zero (R96). -/
theorem decodePlain_eq_ok_iff {n : Nat} {i j : Instr} : decodePlain n j = .ok i ↔ n = 0 ∧ j = i := by
  refine ⟨fun h => (decodePlain_eq_ok h).imp_right Eq.symm, ?_⟩
  rintro ⟨rfl, rfl⟩
  rfl

/-- R91 to R93: a word spells a command exactly when its fields are the opcode of the command and its operand, 0 where it has none. -/
theorem decode_eq_ok_iff {w : Word} {i : Instr} :
    decode w = .ok i ↔ opField w = (opcode i).toNat ∧ immField w = i.operand.getD 0 := by
  constructor
  · intro h
    unfold decode at h
    split at h
    case h_2 ho | h_3 ho | h_5 ho =>
      cases h
      exact ⟨ho, rfl⟩
    case h_11 => cases h
    all_goals
      obtain ⟨himm, rfl⟩ := decodePlain_eq_ok_iff.1 h
      exact ⟨by assumption, himm⟩
  · rintro ⟨hop, himm⟩
    unfold decode
    rw [hop, himm]
    cases i <;> rfl

/-- Settles O1: the fields of the encoding are the opcode and the operand. -/
theorem decodeOfEncodeIsIdentity : Obligations.DecodeOfEncodeIsIdentity := fun _ h =>
  decode_eq_ok_iff.2 (Laws.OpcodeField.of_operand h.operand_lt h)

/-- Settles O2: a word is determined by its two fields, and the immediate field is below 2^24. -/
theorem encodeOfDecodeIsIdentity : Obligations.EncodeOfDecodeIsIdentity := by
  intro w i h
  obtain ⟨hop, himm⟩ := decode_eq_ok_iff.1 h
  rw [opField_eq] at hop
  rw [immField_eq] at himm
  constructor
  · apply BitVec.eq_of_toNat_eq
    rw [encode_toNat, ← hop, ← himm]
    omega
  · unfold Instr.WellFormed Instr.wellFormed
    split
    case h_1 n hn =>
      rw [hn, Option.getD_some] at himm
      exact decide_eq_true (by omega)
    case h_2 => rfl

/-- Settles O6: each example is a well-formed command with its encoding, so that decoding the word is the inverse. -/
theorem encodingExamplesOfTheSpec : Obligations.EncodingExamplesOfTheSpec := by
  intro e he
  obtain ⟨hwf, henc⟩ : e.1.WellFormed ∧ encode e.1 = e.2 := by
    revert e
    decide
  exact ⟨henc, henc ▸ decodeOfEncodeIsIdentity e.1 hwf⟩

/-! ## The words that spell none -/

/-- A word that spells no command is refused by name. -/
theorem exists_decode_error {w : Word} (h : ∀ i, decode w ≠ .ok i) : ∃ e, decode w = .error e := by
  cases hd : decode w with
  | error e => exact ⟨e, rfl⟩
  | ok i => exact absurd hd (h i)

/-- The ten opcodes (R93). -/
theorem opcode_mem (i : Instr) : (opcode i).toNat ∈ [0x01, 0x02, 0x10, 0x11, 0x12, 0x13, 0x20, 0x21, 0x22, 0x23] := by
  cases i <;> simp [opcode]

/-- R95: a word with an undefined opcode spells no command. -/
theorem decode_ne_ok_of_undefined {w : Word}
    (h : w.toNat / 16777216 ∉ [0x01, 0x02, 0x10, 0x11, 0x12, 0x13, 0x20, 0x21, 0x22, 0x23]) (i : Instr) :
    decode w ≠ .ok i := by
  intro hd
  obtain ⟨hop, -⟩ := decode_eq_ok_iff.1 hd
  rw [opField_eq] at hop
  exact h (hop ▸ opcode_mem i)

/-- The seven opcodes whose commands have no operand (R96). -/
theorem operand_eq_none_of_opcode_mem {i : Instr} (h : (opcode i).toNat ∈ [0x01, 0x11, 0x13, 0x20, 0x21, 0x22, 0x23]) :
    i.operand = none := by
  cases i with
  | init | qget | lget | decf | decr | decdc | seqx => rfl
  | initq | qset | lset => simp [opcode] at h

/-- R96: a word of a command without operand whose immediate is not zero spells no command. -/
theorem decode_ne_ok_of_reserved {w : Word} (hop : w.toNat / 16777216 ∈ [0x01, 0x11, 0x13, 0x20, 0x21, 0x22, 0x23])
    (himm : w.toNat % 16777216 ≠ 0) (i : Instr) : decode w ≠ .ok i := by
  intro hd
  obtain ⟨hop', himm'⟩ := decode_eq_ok_iff.1 hd
  rw [opField_eq] at hop'
  rw [immField_eq] at himm'
  rw [operand_eq_none_of_opcode_mem (hop' ▸ hop)] at himm'
  exact himm himm'

/-! ## The opcode table -/

/-- The row of a command: it compares the opcode, and the immediate with zero where the command has no operand (R100). -/
def Instr.row (i : Instr) : OpcodeRow where
  mnemonic := i.mnemonic
  pattern := opcode i ++ 0#24
  mask := 0xFF#8 ++ (if i.operand.isSome then 0#24 else BitVec.allOnes 24)

/-- An operand does not show in the row. -/
theorem Instr.row_mem (i : Instr) : i.row ∈ opcodeTable := by
  cases i with
  | initq => exact (by decide : (Instr.initq 0).row ∈ opcodeTable)
  | qset => exact (by decide : (Instr.qset 0).row ∈ opcodeTable)
  | lset => exact (by decide : (Instr.lset 0).row ∈ opcodeTable)
  | init | qget | lget | decf | decr | decdc | seqx => decide

/-- The table holds the rows of the commands and no others. -/
theorem exists_row_of_mem {r : OpcodeRow} (h : r ∈ opcodeTable) : ∃ i : Instr, r = i.row := by
  have hrows : opcodeTable =
      [Instr.init, .initq 0, .qset 0, .qget, .lset 0, .lget, .decf, .decr, .decdc, .seqx].map Instr.row := by decide
  obtain ⟨i, -, hi⟩ := List.mem_map.1 (hrows ▸ h)
  exact ⟨i, hi.symm⟩

/-- No two rows have one mnemonic. -/
theorem row_unique : ∀ r ∈ opcodeTable, ∀ r' ∈ opcodeTable, r.mnemonic = r'.mnemonic → r = r' := by decide

/-- Two words are equal when their fields are (R91). -/
theorem append_eq_append_iff {a b : BitVec 8} {x y : BitVec 24} : a ++ x = b ++ y ↔ a = b ∧ x = y := by
  refine ⟨fun h => ⟨?_, ?_⟩, fun ⟨ha, hx⟩ => ha ▸ hx ▸ rfl⟩
  · simpa only [BitVec.extractLsb'_append_eq_left] using congrArg (BitVec.extractLsb' 24 8) h
  · simpa only [BitVec.extractLsb'_append_eq_right] using congrArg (BitVec.extractLsb' 0 24) h

/-- R100: the words a row selects, by their fields. The mask keeps the opcode whole. -/
theorem Instr.selects_row_iff {i : Instr} {w : Word} :
    i.row.selects w = true ↔ opField w = (opcode i).toNat ∧ (i.operand = none → immField w = 0) := by
  have hmasked : w &&& i.row.mask =
      w.extractLsb' 24 8 ++ (w.extractLsb' 0 24 &&& if i.operand.isSome then 0#24 else BitVec.allOnes 24) := by
    conv_lhs => rw [← BitVec.extractLsb'_append_extractLsb' (w := 8) (len := 24) (x := w), Instr.row, BitVec.and_append]
    exact congrArg (· ++ _) BitVec.and_allOnes
  rw [OpcodeRow.selects, beq_iff_eq, hmasked, Instr.row, append_eq_append_iff, opField, BitVec.toNat_inj]
  refine and_congr_right fun _ => ?_
  cases i.operand with
  | some n => simp
  | none => simp only [Option.isSome_none, Bool.false_eq_true, if_false, BitVec.and_allOnes, ← BitVec.toNat_inj,
      BitVec.toNat_zero, forall_const, immField]

/-- A word that spells a command selects the row of that command. -/
theorem selects_row_of_decode {w : Word} {i : Instr} (h : decode w = .ok i) : i.row.selects w = true := by
  obtain ⟨hop, himm⟩ := decode_eq_ok_iff.1 h
  exact Instr.selects_row_iff.2 ⟨hop, fun hn => by rw [himm, hn]; rfl⟩

/-- A word that selects the row of a command spells that command, the operand being the word's own (R92). -/
theorem exists_decode_of_selects_row {w : Word} {i : Instr} (h : i.row.selects w = true) :
    ∃ j, decode w = .ok j ∧ j.mnemonic = i.mnemonic := by
  obtain ⟨hop, himm⟩ := Instr.selects_row_iff.1 h
  cases hn : i.operand with
  | none => exact ⟨i, decode_eq_ok_iff.2 ⟨hop, by rw [himm hn, hn]; rfl⟩, rfl⟩
  | some n =>
    cases i with
    | initq => exact ⟨.initq (immField w), decode_eq_ok_iff.2 ⟨hop, rfl⟩, rfl⟩
    | qset => exact ⟨.qset (immField w), decode_eq_ok_iff.2 ⟨hop, rfl⟩, rfl⟩
    | lset => exact ⟨.lset (immField w), decode_eq_ok_iff.2 ⟨hop, rfl⟩, rfl⟩
    | init | qget | lget | decf | decr | decdc | seqx => cases hn

/-- R100: a row of the table selects the words of its command. -/
theorem selects_iff_of_mem {r : OpcodeRow} (hr : r ∈ opcodeTable) (w : Word) :
    r.selects w = true ↔ ∃ i, decode w = .ok i ∧ i.mnemonic = r.mnemonic := by
  constructor
  · intro h
    obtain ⟨i, rfl⟩ := exists_row_of_mem hr
    exact exists_decode_of_selects_row h
  · rintro ⟨i, hd, hm⟩
    exact row_unique _ i.row_mem r hr hm ▸ selects_row_of_decode hd

/-- Settles O5: a row selects the words of its command, and a word spells one command, whose mnemonic names one row. -/
theorem opcodeRowsSelectTheirCommands : Obligations.OpcodeRowsSelectTheirCommands := by
  refine ⟨fun r hr w => selects_iff_of_mem hr w, by decide, ?_, ?_⟩
  · intro r hr r' hr' w h h'
    obtain ⟨i, hd, hm⟩ := (selects_iff_of_mem hr w).1 h
    obtain ⟨j, hd', hm'⟩ := (selects_iff_of_mem hr' w).1 h'
    obtain rfl : i = j := Except.ok.inj (hd.symm.trans hd')
    exact row_unique r hr r' hr' (hm.symm.trans hm')
  · intro w hnone
    refine exists_decode_error fun i hd => ?_
    exact Bool.false_ne_true ((hnone _ i.row_mem).symm.trans (selects_row_of_decode hd))

end Sys2Proof
end

section
/-! SUPPORT. A command word written to CMD (30_encoding.md R90, R95, R96, R103): a word that spells a command runs it, any other word
completes with IllegalCommand. -/

namespace Sys2Proof.Machine

/-! ## Words that spell no command -/

/-- R95, R96: a word that spells no command, written to CMD of an idle engine, completes with IllegalCommand. -/
theorem perform_cmd_completesIllegal {s : State} {w : Word} (hs : s.Idle) (hw : ∀ i, decode w ≠ .ok i) :
    ∃ t, s.perform (.write 4 0 w) = .next t ∧ CompletedWith .illegalCommand s t := by
  obtain ⟨e, hd⟩ := exists_decode_error hw
  exact ⟨_, perform_cmd_of_decode_error hs.1 hd, s.raise_completedWith _⟩

/-- Settles O3: a word with an undefined opcode spells no command. -/
theorem undefinedOpcodeCompletesIllegal : Obligations.UndefinedOpcodeCompletesIllegal := by
  constructor
  · intro s w hs hop
    exact perform_cmd_completesIllegal hs (decode_ne_ok_of_undefined hop)
  · rintro w (rfl | rfl) <;> decide

/-- Settles O4: a word with a nonzero reserved immediate spells no command. -/
theorem reservedImmediateCompletesIllegal : Obligations.ReservedImmediateCompletesIllegal := fun _ _ hs hop himm =>
  perform_cmd_completesIllegal hs (decode_ne_ok_of_reserved hop himm)

/-! ## Steps -/

/-- A step performs the first event of the script and takes it off (R103). -/
theorem step_of_script {s : State} {e : Event} {rest : List Event} (h : s.script = e :: rest) :
    step s = State.perform e { s with script := rest } := by
  simp only [step, State.takeEvent, h]

/-- R90: a word that spells a command, written to CMD of an engine that is not busy, runs it. -/
theorem perform_cmd_of_decode_ok {s : State} {w : Word} {i : Instr} (hb : s.busy = false) (hd : decode w = .ok i) :
    s.perform (.write 4 0 w) = exec i s := by
  rw [perform_cmd, hb]
  simp only [State.runWord, hd]
  rfl

/-- Placing a 32-bit word is the host's write of that word. -/
theorem withFetchWord_toNat (s : State) (w : Word) : s.withFetchWord 32 w.toNat = s.placeWord w := by
  rw [State.withFetchWord, Nat.mod_eq_of_lt w.isLt, BitVec.ofNat_toNat, BitVec.setWidth_eq]

/-- Settles O7: the event of the step is the write to CMD, and so it is in the state that `withFetchWord` gives. -/
theorem stepRunsTheCommandWrittenToCmd : Obligations.StepRunsTheCommandWrittenToCmd := by
  constructor
  · intro s w rest hscript hb
    rw [step_of_script hscript]
    exact ⟨fun i hd => perform_cmd_of_decode_ok hb hd, fun e hd => perform_cmd_of_decode_error hb hd⟩
  · intro s w i hd
    rw [withFetchWord_toNat, step_of_script (s := s.placeWord w) rfl]
    exact perform_cmd_of_decode_ok (s := { s with busy := false, inflight := none }) rfl hd

end Sys2Proof.Machine
end

section
/-! SUPPORT. The quantization table in numbers (40_quant_table.md R111, R116, R119, 20_memory.md R60 to R63): what the clamp stores, the
source values as the statements read them, and the bytes of the read-back image. -/

namespace Sys2Proof.Machine

/-! ## The clamp -/

theorem clamp16_toNat (v : Int) : ((clamp16 v).toNat : Int) = storedValue v := by
  have hclamp : (clamp16 v).toNat = (storedValue v % 65536).toNat := BitVec.toNat_ofInt (storedValue v)
  have hrange : 0 ≤ storedValue v ∧ storedValue v ≤ 65535 := by
    unfold storedValue
    split_ifs <;> omega
  omega

theorem storedValue_ne_of_outOfRange {v : Int} (h : v < 0 ∨ 65535 < v) : storedValue v ≠ v := by
  unfold storedValue
  split_ifs <;> omega

/-- Settles O19: what the clamp stores is the stored value, which lies in range. -/
theorem clampSaturates : Obligations.ClampSaturates := fun v =>
  ⟨clamp16_toNat v, fun h => clamp16_toNat v ▸ storedValue_ne_of_outOfRange h⟩

/-! ## The source image -/

/-- R60: the first byte of a little-endian number is its lowest. -/
theorem ofNat_leValue_cons (n : Nat) (b : Byte) (bs : List Byte) :
    BitVec.ofNat (n + 8) (leValue (b :: bs)) = BitVec.ofNat n (leValue bs) ++ b := by
  have hb := b.isLt
  have hlow : (b.toNat + 256 * leValue bs) % 2 ^ 8 = b.toNat := by omega
  have hhigh : (b.toNat + 256 * leValue bs) / 2 ^ 8 = leValue bs := by omega
  apply BitVec.eq_of_toNat_eq
  rw [BitVec.toNat_append, ← Nat.shiftLeft_add_eq_or_of_lt hb, Nat.shiftLeft_eq, BitVec.toNat_ofNat, BitVec.toNat_ofNat,
    leValue, Nat.pow_add, Nat.mul_comm (2 ^ n), Nat.mod_mul, hlow, hhigh, Nat.add_comm, Nat.mul_comm]

theorem ofNat_leValue_singleton (b : Byte) : BitVec.ofNat 8 (leValue [b]) = b := by
  simp [leValue]

/-- The model's source value is the statements' (R62). -/
theorem sourceValue_eq_imageValue (s : State) (i : Nat) : sourceValue s.mem s.regs i = imageValue s i := by
  simp only [sourceValue, imageValue, Memory.readLe, Memory.readBytes]
  rw [ofNat_leValue_cons 24, ofNat_leValue_cons 16, ofNat_leValue_cons 8, ofNat_leValue_singleton]

/-- Entry `i` of the table that INITQ and QSET compute (R114, R116). -/
theorem clampedTable_toNat (s : State) (i : Fin 64) :
    ((clampedTable s.mem s.regs)[i].toNat : Int) = storedValue (imageValue s i) := by
  have hentry : (clampedTable s.mem s.regs)[i] = clamp16 (sourceValue s.mem s.regs i) := by
    simp [clampedTable]
  rw [hentry, clamp16_toNat, sourceValue_eq_imageValue]

/-! ## The read-back image -/

/-- The read-back image has one value for each of its bytes (R63). -/
theorem readBackCells_unique {q : Table} {ops : OperandRegs} {c d : Host.Cell} (hc : c ∈ readBackCells q ops)
    (hd : d ∈ readBackCells q ops) (h : c.1 = d.1) : c.2 = d.2 := by
  obtain ⟨i, rfl | rfl⟩ := mem_readBackCells.1 hc <;> obtain ⟨j, rfl | rfl⟩ := mem_readBackCells.1 hd <;> simp only at h
  · obtain rfl : i = j := Fin.ext (by omega)
    rfl
  · omega
  · omega
  · obtain rfl : i = j := Fin.ext (by omega)
    rfl

/-- After the read-back is stored, entry `i` stands little-endian at `DST_BASE + 2*i` (R63, R120). -/
theorem read_writeCells_readBackCells {m : Memory} (hm : m.wf = true) {q : Table} {ops : OperandRegs}
    (hw : WindowHolds ops.dstBase ops.dstLen 128) (i : Fin 64) :
    (m.writeCells (readBackCells q ops)).read (ops.dstBase.toNat + 2 * i.val + 1) ++
      (m.writeCells (readBackCells q ops)).read (ops.dstBase.toNat + 2 * i.val) = q[i] := by
  have hend : ops.dstBase.toNat + 128 ≤ 4294967296 := by
    obtain ⟨hlen, htop⟩ := hw
    omega
  have hread : ∀ c ∈ readBackCells q ops, (m.writeCells (readBackCells q ops)).read c.1 = c.2 := fun c hc =>
    Memory.read_writeCells_same hm (fun d hd => Nat.lt_of_lt_of_le (readBackCells_range hd).2 hend)
      (fun d hd h => readBackCells_unique hd hc h) hc
  rw [hread _ (mem_readBackCells.2 ⟨i, .inr rfl⟩), hread _ (mem_readBackCells.2 ⟨i, .inl rfl⟩)]
  exact BitVec.extractLsb'_append_extractLsb'

end Sys2Proof.Machine
end

section
/-! SUPPORT. The outcome of a command at the atomic level (40_quant_table.md R110): by the outcome of its checks, and its frame, which
says for each piece of state the commands that change it (R75, R228). -/

namespace Sys2Proof.Machine

/-! ## By the outcome of the checks -/

theorem exec_of_error {i : Instr} {s : State} {e : Err} (he : (commandOf Config.sensor i).error s.cfg s.regs = some e) :
    ∃ t, exec i s = .next t ∧ CompletedWith e s t :=
  ⟨_, by rw [exec_eq_apply, Command.apply_of_error he], s.raise_completedWith e⟩

theorem exec_of_none {i : Instr} {s : State} (he : (commandOf Config.sensor i).error s.cfg s.regs = none) :
    exec i s = .next ((commandOf Config.sensor i).effect s.regs s).complete := by
  rw [exec_eq_apply, Command.apply_of_none he]

/-- A command that reports success has passed its checks. -/
theorem exec_ok {i : Instr} {s t : State} (h : exec i s = .next t) (hok : t.err = .ok) :
    (commandOf Config.sensor i).error s.cfg s.regs = none ∧
      t = ((commandOf Config.sensor i).effect s.regs s).complete := by
  obtain ⟨e, he, rfl⟩ | hnone := exec_cases h
  · exact absurd (he.trans (congrArg some hok)) Command.error_ne_ok
  · exact hnone

/-- A command that reports no success has raised an error on the state before. -/
theorem exec_failed {i : Instr} {s t : State} (h : exec i s = .next t) (herr : t.err ≠ .ok) : ∃ e, t = s.raise e := by
  obtain ⟨e, -, ht⟩ | ⟨-, rfl⟩ := exec_cases h
  · exact ⟨e, ht⟩
  · exact absurd rfl herr

/-! ## What a command keeps -/

/-- R38: FAULT changes only with an AccessFault. -/
theorem exec_accessFault_or_fault_eq {i : Instr} {s t : State} (h : exec i s = .next t) :
    t.err = .accessFault ∨ t.fault = s.fault := by
  rw [exec_fault h]
  by_cases he : t.err = .accessFault
  · exact .inl he
  · exact .inr (by simp [he])

/-- R75: a command leaves every byte outside its write range alone. -/
theorem exec_memorySameOutside {i : Instr} {s t : State} (h : exec i s = .next t) :
    MemorySameOutside (writeRange i s.regs).1 (writeRange i s.regs).2 s t := by
  obtain ⟨e, -, rfl⟩ | ⟨-, rfl⟩ := exec_cases h
  · exact fun _ _ => rfl
  · intro b hb
    obtain ⟨cells, hmem, hrange⟩ := effect_mem Config.sensor i s.regs s
    rw [State.complete_mem, hmem]
    refine Memory.read_writeCells_other fun c hc hcb => ?_
    have := hrange c hc
    omega

/-- R75: the commands that store no byte keep memory. -/
theorem effect_mem_of_storesNothing {p : Profile} {i : Instr} {ops : OperandRegs} {s : State} (hjob : jobOf i ops = none)
    (hi : i ≠ .qget) : ((commandOf p i).effect ops s).mem = s.mem := by
  cases i with
  | qget => exact absurd rfl hi
  | decf | decr | decdc => cases hjob
  | init | initq | qset | lset | lget | seqx => rfl

section
variable (p : Profile) (i : Instr) (ops : OperandRegs) (s : State)

/-- R112, R114, R116: the commands that change QTAB. -/
theorem effect_qtab : i = .init ∨ (∃ n, i = .initq n) ∨ (∃ n, i = .qset n) ∨ ((commandOf p i).effect ops s).qtab = s.qtab := by
  cases i with
  | init => exact .inl rfl
  | initq n => exact .inr (.inl ⟨n, rfl⟩)
  | qset n => exact .inr (.inr (.inl ⟨n, rfl⟩))
  | qget | lset | lget | decf | decr | decdc | seqx => exact .inr (.inr (.inr rfl))

/-- R112, R114, R176: the commands that change LANES. -/
theorem effect_lanes :
    i = .init ∨ (∃ n, i = .initq n) ∨ (∃ n, i = .lset n) ∨ ((commandOf p i).effect ops s).lanes = s.lanes := by
  cases i with
  | init => exact .inl rfl
  | initq n => exact .inr (.inl ⟨n, rfl⟩)
  | lset n => exact .inr (.inr (.inl ⟨n, rfl⟩))
  | qset | qget | lget | decf | decr | decdc | seqx => exact .inr (.inr (.inr rfl))

/-- R237: the commands that change CFG. -/
theorem effect_cfg_eq_or_constructs : i = .init ∨ (∃ n, i = .initq n) ∨ ((commandOf p i).effect ops s).cfg = s.cfg := by
  rw [effect_cfg]
  split
  case h_1 => exact .inl rfl
  case h_2 n => exact .inr (.inl ⟨n, rfl⟩)
  case h_3 => exact .inr (.inr rfl)

/-- R42: the commands that change RESULT and RESULT_HI. -/
theorem effect_result : i = .lget ∨ i = .seqx ∨
    (((commandOf p i).effect ops s).result = s.result ∧ ((commandOf p i).effect ops s).resultHi = s.resultHi) := by
  cases i with
  | lget => exact .inl rfl
  | seqx => exact .inr (.inl rfl)
  | init | initq | qset | qget | lset | decf | decr | decdc => exact .inr (.inr ⟨rfl, rfl⟩)

end

/-- Settles O53: an error changes STATUS only, and each piece of state has its lemma on the effects that change it. -/
theorem frameOfCommandsThatStoreNothing : Obligations.FrameOfCommandsThatStoreNothing := by
  intro i s t hjob hi h
  have hfault := exec_accessFault_or_fault_eq h
  obtain ⟨e, -, rfl⟩ | ⟨-, rfl⟩ := exec_cases h
  · exact ⟨rfl, rfl, ⟨rfl, rfl, rfl⟩, .inr (.inr (.inr rfl)), .inr (.inr (.inr rfl)), .inr (.inr rfl),
      .inr (.inr ⟨rfl, rfl⟩), hfault⟩
  · obtain ⟨hregs, -, -, hhost⟩ := effect_keeps Config.sensor i s.regs s
    exact ⟨effect_mem_of_storesNothing hjob hi, hregs, hhost, effect_qtab .., effect_lanes .., effect_cfg_eq_or_constructs ..,
      effect_result .., hfault⟩

/-- The effects that store change memory only (R120, R183, R204). -/
theorem effect_eq_of_stores {p : Profile} {i : Instr} (hi : i = .qget ∨ i = .decf ∨ i = .decr ∨ i = .decdc)
    (ops : OperandRegs) (s : State) :
    (commandOf p i).effect ops s = { s with mem := ((commandOf p i).effect ops s).mem } := by
  obtain rfl | rfl | rfl | rfl := hi <;> rfl

/-- Settles O54: an error changes STATUS only, and an effect changes memory only, in the write range. -/
theorem frameOfCommandsThatStore : Obligations.FrameOfCommandsThatStore := by
  intro i s t hi h
  refine ⟨?_, exec_memorySameOutside h, exec_accessFault_or_fault_eq h⟩
  obtain ⟨e, -, rfl⟩ | ⟨-, rfl⟩ := exec_cases h
  · rfl
  · rw [effect_eq_of_stores hi]
    rfl

end Sys2Proof.Machine
end

section
/-! SUPPORT. The quantization table commands INIT, INITQ, QSET and QGET (40_quant_table.md R112 to R120): the words that spell them,
what each does, and the commit of a table at the lane level (R118). -/

namespace Sys2Proof.Machine

/-! ## The words of a command -/

/-- The words of the opcode of a command with operand spell it with their immediate (R92). -/
theorem spelledWith_of_operand {op : Nat} {f : Nat → Instr} (hop : ∀ n, (opcode (f n)).toNat = op)
    (hf : ∀ n, (f n).operand = some n) : SpelledWith op f := by
  intro w hw
  refine decode_eq_ok_iff.2 ⟨?_, ?_⟩
  · rw [opField_eq, hw, hop]
  · rw [immField_eq, hf, Option.getD_some]

/-- The words of the opcode of a command without operand are decoded by their immediate alone (R96). -/
theorem spelledPlain_of_operand_eq_none {i : Instr} (hi : i.operand = none) : SpelledPlain (opcode i).toNat i := by
  intro w hw
  have hdecode : decode w = decodePlain (immField w) i := by
    unfold decode
    rw [opField_eq, hw]
    cases i with
    | initq | qset | lset => cases hi
    | init | qget | lget | decf | decr | decdc | seqx => rfl
  rw [hdecode, immField_eq, decodePlain]

/-! ## INIT and INITQ -/

/-- STATUS after a construction: READY and DONE, and FAULT where it was set (R39, R113). -/
theorem State.status_complete_construct (p : Profile) (q : Table) (s : State) :
    (s.construct p q).complete.status = if s.fault then 0x0E else 0x06 := by
  simp only [State.status, State.ready, State.complete_err, State.complete_fault, State.complete_cfg, State.complete_done,
    State.complete_busy, State.construct_fault, State.construct_cfg]
  cases s.fault <;> rfl

/-- R21: the entries of the constant table. -/
theorem getElem_qrom (p : Profile) (i : Fin 64) : (qrom p)[i] = p.defaultQtab i := by
  simp [qrom]

/-- Settles O20: INIT has no check, and its effect is the construction with the default table. -/
theorem initConstructsWithTheDefaultTable : Obligations.InitConstructsWithTheDefaultTable := by
  refine ⟨spelledPlain_of_operand_eq_none (i := .init) rfl, fun s => ?_⟩
  exact ⟨_, exec_of_none rfl, getElem_qrom _, lanesReset_toNat _, rfl, s.status_complete_construct _ _,
    rfl, rfl, rfl, rfl, rfl, rfl, rfl⟩

/-- Settles O21, by the chain of the checks; the effect is the construction with the clamped image. -/
theorem initqConstructsWithTheImage : Obligations.InitqConstructsWithTheImage := by
  refine ⟨spelledWith_of_operand (fun _ => rfl) fun _ => rfl, fun n s => ⟨fun hn => ?_, ?_, ?_⟩⟩
  · exact exec_of_error (by rw [initq_error, if_pos hn])
  · rintro rfl hw
    exact exec_of_error (by rw [initq_error, if_neg (by decide), if_pos hw])
  · rintro rfl hw
    exact ⟨_, exec_of_none (by rw [initq_error, if_neg (by decide), if_neg (not_not_intro hw)]), clampedTable_toNat s,
      lanesReset_toNat _, rfl, s.status_complete_construct _ _, rfl, rfl, rfl, rfl, rfl, rfl, rfl⟩

/-! ## QSET -/

/-- Settles O22, by the chain of the checks; the effect replaces the table by the clamped image. -/
theorem qsetReplacesTheTable : Obligations.QsetReplacesTheTable := by
  refine ⟨spelledWith_of_operand (fun _ => rfl) fun _ => rfl, fun n s => ⟨fun hcfg => ?_, fun hcfg hn => ?_, ?_, ?_⟩⟩
  · exact exec_of_error (by rw [qset_error, if_pos hcfg])
  · exact exec_of_error (by rw [qset_error, hcfg, if_neg (by decide), if_pos hn])
  · rintro hcfg rfl hw
    exact exec_of_error (by rw [qset_error, hcfg, if_neg (by decide), if_neg (by decide), if_pos hw])
  · rintro hcfg rfl hw
    exact ⟨_, exec_of_none (by rw [qset_error, hcfg, if_neg (by decide), if_neg (by decide), if_neg (not_not_intro hw)]),
      clampedTable_toNat s, rfl⟩

/-- Settles O23: a failed command has raised an error on the state before, which changes STATUS only. -/
theorem failedTableCommandKeepsTheTable : Obligations.FailedTableCommandKeepsTheTable := by
  intro n s t h herr
  obtain ⟨e, rfl⟩ : ∃ e, t = s.raise e := h.elim (exec_failed · herr) (exec_failed · herr)
  rfl

/-! ## The commit of a table -/

/-- R110 steps 2 to 5, for a command that leaves work: the work is all that changes. -/
theorem runChecks_of_work {p : Profile} (f : InFlight) {s : State} {i : Instr} {w : Work} (hd : decode f.word = .ok i)
    (he : (commandOf p i).error s.cfg f.ops = none) (hw : workAfterChecks i f.ops s.mem = some w) :
    s.runChecks p f = { s with inflight := some { f with work := w } } := by
  simp only [State.runChecks, hd, he, hw]

/-- R118: the work that a table command leaves is the table it computed, and the commit of that work, whatever is in flight, is its
effect with the completion. -/
theorem commit_workAfterChecks {i : Instr} (hi : i = .qset 64 ∨ i = .initq 64) (p : Profile) (s : State) (w : Word) :
    ∃ constructs, workAfterChecks i s.regs s.mem = some (.commit constructs (clampedTable s.mem s.regs)) ∧
      ∀ f, State.commit p constructs (clampedTable s.mem s.regs) { s.accept w with inflight := f } =
        ((commandOf p i).effect s.regs s).complete := by
  obtain rfl | rfl := hi
  · exact ⟨false, rfl, fun _ => rfl⟩
  · exact ⟨true, rfl, fun _ => rfl⟩

/-- Settles O24: passed checks leave the computed table as work, and its commit is the effect with the completion. -/
theorem tableCommitIsOneTransition : Obligations.TableCommitIsOneTransition := by
  intro p s w i _ hd hi he
  obtain ⟨constructs, hwork, hcommit⟩ := commit_workAfterChecks hi p s w
  refine ⟨_, advance_accept p s w, ?_⟩
  rw [runChecks_of_work (s := s.accept w) ⟨w, s.regs, .checks⟩ hd he hwork, execWith_eq, Command.apply_of_none he]
  exact ⟨rfl, rfl, rfl, rfl, congrArg Host.Outcome.next (hcommit _)⟩

/-! ## QGET -/

/-- Settles O25, by the chain of the checks; the effect stores the read-back image. -/
theorem qgetWritesTheTable : Obligations.QgetWritesTheTable := by
  refine ⟨spelledPlain_of_operand_eq_none (i := .qget) rfl, fun s => ⟨fun hcfg => ?_, fun hcfg hw => ?_, fun hm hcfg hw => ?_⟩⟩
  · exact exec_of_error (by rw [qget_error, if_pos hcfg])
  · exact exec_of_error (by rw [qget_error, hcfg, if_neg (by decide), if_pos hw])
  · have h := exec_of_none (i := .qget) (s := s) (by rw [qget_error, hcfg, if_neg (by decide), if_neg (not_not_intro hw)])
    exact ⟨_, h, read_writeCells_readBackCells hm hw, exec_memorySameOutside h, rfl⟩

/-- R120: the destination window of a QGET whose checks pass holds the image. -/
theorem windowHolds_of_qget_checks {p : Profile} {cfg : Cfg} {ops : OperandRegs}
    (he : (commandOf p .qget).error cfg ops = none) : WindowHolds ops.dstBase ops.dstLen 128 := by
  obtain ⟨-, -, -, haccess⟩ := Command.error_eq_none_iff.1 he
  exact OperandRegs.dst_admits_iff.1 haccess

/-- Settles O26: the table that the QGET stores is the one that the QSET computed, whatever the operand registers between. -/
theorem setThenGetReturnsTheClampedTable : Obligations.SetThenGetReturnsTheClampedTable := by
  intro s t u r hm hset ht hget hu i
  obtain ⟨-, rfl⟩ := exec_ok hset ht
  obtain ⟨hchecks, rfl⟩ := exec_ok hget hu
  refine ⟨?_, storedValue_ne_of_outOfRange⟩
  rw [← clampedTable_toNat]
  exact congrArg (fun e : Entry => (e.toNat : Int)) (read_writeCells_readBackCells hm (windowHolds_of_qget_checks hchecks) i)

end Sys2Proof.Machine
end

section
/-! SUPPORT. The dequantizer of the block kernel (41_block_kernel.md R132 to R134). -/

namespace Sys2Proof.Machine

/-- R134: the product of a level and an entry is least at -32768 * 65535 and greatest at 32767 * 65535. -/
theorem level_mul_entry_bounds (l : Level) (q : Entry) :
    -2147450880 ≤ l.toInt * q.toNat ∧ l.toInt * q.toNat ≤ 2147385345 := by
  have hmin : -32768 ≤ l.toInt := l.le_toInt
  have hmax : l.toInt ≤ 32767 := Int.le_of_lt_add_one l.toInt_lt
  have hq : (q.toNat : Int) ≤ 65535 := Int.ofNat_le.2 (Nat.le_of_lt_succ q.isLt)
  have hq0 : (0 : Int) ≤ q.toNat := Int.natCast_nonneg _
  constructor
  · calc (-2147450880 : Int) ≤ -32768 * q.toNat := by omega
      _ ≤ l.toInt * q.toNat := mul_le_mul_of_nonneg_right hmin hq0
  · calc l.toInt * q.toNat ≤ 32767 * q.toNat := mul_le_mul_of_nonneg_right hmax hq0
      _ ≤ 2147385345 := by omega

/-- R134: the bounds lie inside the range of `s32`, so the product is exact. -/
theorem deqProduct_toInt (l : Level) (q : Entry) : (deqProduct l q).toInt = l.toInt * q.toNat := by
  obtain ⟨hmin, hmax⟩ := level_mul_entry_bounds l q
  exact BitVec.toInt_ofInt_eq_self (by decide) (le_trans (by decide) hmin) (lt_of_le_of_lt hmax (by decide))

/-- Settles O29: each position holds the exact product of its own level and entry, whose bounds are those of the product. -/
theorem dequantizerIsExact : Obligations.DequantizerIsExact := by
  intro lev q i
  have hexact : (deq lev q i).toInt = (lev i).toInt * q[i].toNat := deqProduct_toInt (lev i) q[i]
  exact ⟨hexact, hexact ▸ level_mul_entry_bounds (lev i) q[i]⟩

end Sys2Proof.Machine
end

section
/-! SUPPORT. The range map (42_range_map.md): the frame of a valid region or DC request, the block grid in numbers, the covered blocks
inside it, and the image that pixel work leaves in memory (R183), with the full image of DECF. -/

namespace Sys2Proof.Machine

/-! ## The frame of a valid region -/

/-- R157: the sum of two `s32` values. -/
theorem toInt_add_toInt_bounds (a b : Word) :
    -4294967296 ≤ a.toInt + b.toInt ∧ a.toInt + b.toInt ≤ 4294967294 := by
  have ha := a.le_toInt
  have ha' := a.toInt_lt
  have hb := b.le_toInt
  have hb' := b.toInt_lt
  omega

/-- Settles O30: the inequalities follow from those of the validator, the bounds from those of its two summands. -/
theorem validRegionLiesInTheFrame : Obligations.ValidRegionLiesInTheFrame := by
  refine ⟨fun r w h hvalid => ?_, fun ops => ⟨toInt_add_toInt_bounds _ _, toInt_add_toInt_bounds _ _⟩⟩
  obtain ⟨-, ⟨hx, hy⟩, ⟨hright, hbottom⟩, hwidth, hheight⟩ := Region.valid_iff.1 hvalid
  omega

/-! ## The block grid -/

/-- The line bytes are the least multiple of 4 from the width on (R158). -/
theorem lineBytes_bounds (w : Int) : w ≤ lineBytes w ∧ lineBytes w < w + 4 ∧ lineBytes w % 4 = 0 := by
  simp only [lineBytes, roundUp, ceilDiv, Config.lineAlign]
  omega

/-- R159: rounding up to a multiple of 4 first does not change the number of blocks of 8. -/
theorem nbx_eq (w : Int) : nbx w = ((w + 7) / 8).toNat := by
  obtain ⟨hle, hlt, hmod⟩ := lineBytes_bounds w
  simp only [nbx, ceilDiv, Config.blk]
  split <;> omega

/-- R161: the block rows are the height rounded up to blocks. -/
theorem nby_eq (h : Int) : nby h = ((h + 7) / 8).toNat := by
  simp only [nby, ceilDiv, Config.blk]
  split <;> omega

/-- Settles O31, by the block counts as quotients. -/
theorem gridIsTheRoundedUpFrame : Obligations.GridIsTheRoundedUpFrame := by
  intro w
  rw [nbx_eq, nby_eq]
  refine ⟨fun hpos => ⟨?_, ?_, lineBytes_bounds w⟩, fun hnonpos => ?_⟩ <;> omega

/-- A column of the grid is one whose first pixel lies in the frame. -/
theorem lt_nbx_iff {w : Int} {c : Nat} : c < nbx w ↔ 8 * (c : Int) < w := by
  rw [nbx_eq]
  omega

/-- A row of the grid is one whose first pixel lies in the frame. -/
theorem lt_nby_iff {h : Int} {c : Nat} : c < nby h ↔ 8 * (c : Int) < h := by
  rw [nby_eq]
  omega

/-! ## The covered blocks -/

/-- R164: the block at the origin of a valid region is covered. -/
theorem Region.covers_origin {r : Region} {w h : Int} (hv : r.Valid w h) : r.Covers ⟨r.colLo, r.rowLo⟩ := by
  obtain ⟨-, ⟨hx, hy⟩, -, hwidth, hheight⟩ := hv
  simp only [Region.Covers, Region.colLo, Region.rowLo, Config.blk]
  omega

/-- R164: a valid region covers blocks of the grid only. -/
theorem Region.Covers.lt_grid {r : Region} {w h : Int} (hv : r.Valid w h) {b : Block} (hb : r.Covers b) :
    b.col < nbx w ∧ b.row < nby h := by
  obtain ⟨-, -, ⟨hright, hbottom⟩, -, -⟩ := hv
  obtain ⟨-, hcol, -, hrow⟩ := hb
  rw [lt_nbx_iff, lt_nby_iff]
  omega

/-- R155: the full region of a positive frame is valid. -/
theorem fullRegion_valid {w h : Int} (hw : 0 < w) (hh : 0 < h) : (Region.mk 0 0 w h).Valid w h :=
  ⟨⟨rfl, rfl⟩, ⟨le_rfl, le_rfl⟩, ⟨(Int.zero_add w).le, (Int.zero_add h).le⟩, hw, hh⟩

/-- R164: the full region covers the whole grid. -/
theorem mem_blocks_fullRegion {w h : Int} (hw : 0 < w) (hh : 0 < h) {b : Block} :
    b ∈ (Region.mk 0 0 w h).blocks ↔ b.col < nbx w ∧ b.row < nby h := by
  rw [Region.mem_blocks (fullRegion_valid hw hh), lt_nbx_iff, lt_nby_iff]
  simp only [Region.Covers]
  omega

/-- Settles O32: the block at the origin is listed, and every listed block is covered. -/
theorem coveredBlocksLieInTheGrid : Obligations.CoveredBlocksLieInTheGrid := by
  refine ⟨fun r w h hvalid => ?_, fun w h b hw hh => mem_blocks_fullRegion hw hh⟩
  have hv := Region.valid_iff.1 hvalid
  exact ⟨fun b => Region.mem_blocks hv, List.ne_nil_of_mem ((Region.mem_blocks hv).2 (Region.covers_origin hv)),
    fun b hb => Region.Covers.lt_grid hv ((Region.mem_blocks hv).1 hb)⟩

/-- R168: a valid DC request covers blocks of the grid only. -/
theorem DcRegion.Covers.lt_grid {r : DcRegion} {w h : Int} (hv : r.Valid w h) {b : Block} (hb : r.Covers b) :
    b.col < nbx w ∧ b.row < nby h := by
  obtain ⟨-, -, -, -, hright, hbottom⟩ := hv
  obtain ⟨-, hcol, -, hrow⟩ := hb
  omega

/-- R167: the grid of a valid DC request is not empty, so the frame is positive. -/
theorem DcRegion.Valid.frame_pos {r : DcRegion} {w h : Int} (hv : r.Valid w h) : 1 ≤ w ∧ 1 ≤ h := by
  obtain ⟨hcols, hrows, hcol, hrow, hright, hbottom⟩ := hv
  have hw : 0 < nbx w := by omega
  have hh : 0 < nby h := by omega
  rw [lt_nbx_iff] at hw
  rw [lt_nby_iff] at hh
  omega

/-- Settles O33: the excluded cases contradict the inequalities of the validator, and every listed block is covered. -/
theorem validDcRequestLiesInTheGrid : Obligations.ValidDcRequestLiesInTheGrid := by
  intro r w h hvalid
  have hv := DcRegion.valid_iff.1 hvalid
  obtain ⟨hw, hh⟩ := hv.frame_pos
  obtain ⟨hcols, hrows, hcol, hrow, hright, hbottom⟩ := id hv
  exact ⟨hw, hh, by omega, by omega, fun b => DcRegion.mem_blocks hv,
    fun b hb => DcRegion.Covers.lt_grid hv ((DcRegion.mem_blocks hv).1 hb)⟩

/-! ## The image in memory -/

/-- R183, R204: after valid block work, sample `(i, k)` of its image stands at `DST_BASE + i * cols + k`. -/
theorem Job.read_writeCells_allCells {p : Profile} {q : Table} {ops : OperandRegs} {m : Memory} {j : Job}
    (hm : m.wf = true) (hv : j.Valid ops) (haccess : j.accessOk p ops = true) {i k : Nat} (hi : i < j.rows)
    (hk : k < j.cols) :
    (m.writeCells (j.allCells p q ops m)).read (ops.dstBase.toNat + i * j.cols + k) = j.sample p q ops m i k := by
  have hmem := (Job.mem_allCells (p := p) (q := q) (m := m) hv).2 ⟨i, k, hi, hk, rfl⟩
  exact Memory.read_writeCells_same hm
    (fun c hc => Nat.lt_of_lt_of_le (Job.allCells_range hc).2 (Job.image_end_le haccess))
    (fun c hc h => Job.allCells_unique hv hc hmem h) hmem

/-- R75: block work leaves every byte outside its image alone. -/
theorem Job.read_writeCells_allCells_other {p : Profile} {q : Table} {ops : OperandRegs} {m : Memory} {j : Job} {a : Nat}
    (ha : a < ops.dstBase.toNat ∨ ops.dstBase.toNat + j.outBytes ≤ a) :
    (m.writeCells (j.allCells p q ops m)).read a = m.read a := by
  refine Memory.read_writeCells_other fun c hc hca => ?_
  have := Job.allCells_range hc
  omega

/-- R181, R183: what valid pixel work with its completion leaves. -/
theorem leavesRegionImage_of_accessOk {p : Profile} {r : Region} {s : State} (hm : s.mem.wf = true)
    (hv : r.Valid s.regs.width s.regs.height) (haccess : (Job.pixels r).accessOk p s.regs = true) :
    LeavesRegionImage p r s (s.storeCells ((Job.pixels r).allCells p s.qtab s.regs s.mem)).complete := by
  refine ⟨fun i k hi hk => ?_, fun a ha => ?_, rfl⟩
  · exact Job.read_writeCells_allCells (j := .pixels r) hm hv haccess (Int.lt_toNat.2 hi) (Int.lt_toNat.2 hk)
  · refine Job.read_writeCells_allCells_other ?_
    rwa [Job.outBytes_eq]

/-! ## DECF -/

/-- A command whose checks pass answers its completed effect, under every profile. -/
theorem answers_of_none {p : Profile} {i : Instr} {s : State} (he : (commandOf p i).error s.cfg s.regs = none) :
    Answers p i s ((commandOf p i).effect s.regs s).complete := by
  have hwith : execWith p i s = .next ((commandOf p i).effect s.regs s).complete := by
    rw [execWith_eq, Command.apply_of_none he]
  refine ⟨hwith, ?_⟩
  rintro rfl
  exact exec_of_none he

/-- Settles O36: DECF is pixel work on the full region, which is valid and covers the whole grid. -/
theorem decfWritesTheFullImage : Obligations.DecfWritesTheFullImage := by
  refine ⟨spelledPlain_of_operand_eq_none (i := .decf) rfl, fun p s hm hcfg hw hh haccess => ?_⟩
  have hv : (decfJob s.regs).Valid s.regs := fullRegion_valid hw hh
  have hblocks : AccessOk p s.regs (fun b => b ∈ (decfJob s.regs).blocks) (decfJob s.regs).outBytes := by
    rw [Job.outBytes_eq]
    exact (AccessOk.congr fun _ => mem_blocks_fullRegion hw hh).2 haccess
  exact ⟨_, answers_of_none (decode_error_eq_none_iff.2 ⟨hcfg, hv, hblocks⟩),
    leavesRegionImage_of_accessOk hm hv ((Job.accessOk_iff hv).2 hblocks)⟩

end Sys2Proof.Machine
end

section
/-! SUPPORT. The thread count and full decode commands LSET, LGET, DECF and DECR (43_decode.md R176 to R188): what each does, how
the images of two decodes compare, and that every schedule of block steps ends in the atomic result (R187). -/

namespace Sys2Proof.Machine

/-! ## The thread count -/

/-- Settles O27, by the chain of the checks; a legal thread count fits LANES. -/
theorem lsetSetsTheThreadCount : Obligations.LsetSetsTheThreadCount := by
  refine ⟨spelledWith_of_operand (fun _ => rfl) fun _ => rfl, fun n s =>
    ⟨fun hcfg => ?_, fun hcfg hn => ?_, fun hcfg h1 h32 => ?_⟩⟩
  · exact exec_of_error (by rw [lset_error, if_pos hcfg])
  · exact exec_of_error (by rw [lset_error, hcfg, if_neg (by decide), if_pos hn])
  · have hlanes : (BitVec.ofNat Config.lanesW n).toNat = n := Nat.mod_eq_of_lt (Nat.lt_of_le_of_lt h32 (by decide))
    exact ⟨_, exec_of_none (by rw [lset_error, hcfg, if_neg (by decide), if_neg (by omega)]), hlanes, rfl⟩

/-- R178: RESULT holds the zero-extended thread count. -/
theorem State.setResult_lanes_result (s : State) : (s.setResult (s.lanes.setWidth 64)).result.toNat = s.lanes.toNat := by
  have hlt := lanes_lt s.lanes
  rw [State.setResult_result, BitVec.extractLsb'_toNat, BitVec.toNat_setWidth, Nat.shiftRight_zero]
  omega

/-- R178: nothing of the thread count reaches RESULT_HI. -/
theorem State.setResult_lanes_resultHi (s : State) : (s.setResult (s.lanes.setWidth 64)).resultHi = 0 := by
  have hlt := lanes_lt s.lanes
  apply BitVec.eq_of_toNat_eq
  rw [State.setResult_resultHi, BitVec.extractLsb'_toNat, BitVec.toNat_setWidth, Nat.shiftRight_eq_div_pow]
  change _ = 0
  omega

/-- Settles O28, by the one check; the effect puts the zero-extended thread count into the result registers. -/
theorem lgetReadsTheThreadCount : Obligations.LgetReadsTheThreadCount := by
  refine ⟨spelledPlain_of_operand_eq_none (i := .lget) rfl, fun s => ⟨fun hcfg => ?_, fun hcfg => ?_⟩⟩
  · exact exec_of_error (by rw [lget_error, if_pos hcfg])
  · exact ⟨_, exec_of_none (by rw [lget_error, hcfg, if_neg (by decide)]), s.setResult_lanes_result,
      s.setResult_lanes_resultHi, rfl⟩

/-! ## The image of a region -/

/-- Settles O35: DECR is pixel work on its region, and passes its checks when that is valid and its bytes lie as they must. -/
theorem decrWritesTheRegionImage : Obligations.DecrWritesTheRegionImage := by
  refine ⟨spelledPlain_of_operand_eq_none (i := .decr) rfl, fun p s hm hcfg hregion haccess => ?_⟩
  have hv : (decrJob s.regs).Valid s.regs := hregion
  have hblocks : AccessOk p s.regs (fun b => b ∈ (decrJob s.regs).blocks) (decrJob s.regs).outBytes := by
    rw [Job.outBytes_eq]
    exact (AccessOk.congr fun _ => Region.mem_blocks hregion).2 haccess
  exact ⟨_, answers_of_none (decode_error_eq_none_iff.2 ⟨hcfg, hv, hblocks⟩),
    leavesRegionImage_of_accessOk hm hv ((Job.accessOk_iff hv).2 hblocks)⟩

/-- The commands with block work, and their jobs (R180, R181, R203). -/
theorem jobOf_eq_some_iff {i : Instr} {ops : OperandRegs} {job : Job} :
    jobOf i ops = some job ↔
      (i = .decf ∧ decfJob ops = job) ∨ (i = .decr ∧ decrJob ops = job) ∨ (i = .decdc ∧ decdcJob ops = job) := by
  cases i <;> simp [jobOf]

/-- A decode command stores all the bytes of its job, and does nothing else (R181, R184, R203). -/
theorem effect_of_jobOf {i : Instr} {ops : OperandRegs} {job : Job} (hjob : jobOf i ops = some job) (p : Profile) (s : State) :
    (commandOf p i).effect ops s = s.storeCells (job.allCells p s.qtab ops s.mem) := by
  obtain ⟨rfl, rfl⟩ | ⟨rfl, rfl⟩ | ⟨rfl, rfl⟩ := jobOf_eq_some_iff.1 hjob <;> rfl

/-- What a decode of pixels that reports success leaves: the image of its region, which is valid (R183). -/
theorem leavesRegionImage_of_execWith {p : Profile} {i : Instr} {r : Region} {s t : State} (hm : s.mem.wf = true)
    (hjob : jobOf i s.regs = some (.pixels r)) (h : execWith p i s = .next t) (hok : t.err = .ok) :
    r.Valid s.regs.width s.regs.height ∧ LeavesRegionImage p r s t := by
  obtain ⟨e, he, rfl⟩ | ⟨he, rfl⟩ := execWith_cases h
  · exact absurd (he.trans (congrArg some hok)) Command.error_ne_ok
  · obtain ⟨-, hrange, haccess⟩ := checks_of_jobOf hjob he
    have hv : r.Valid s.regs.width s.regs.height := Job.rangeOk_iff.1 hrange
    rw [effect_of_jobOf hjob]
    exact ⟨hv, leavesRegionImage_of_accessOk hm hv haccess⟩

/-- The full image depends on the frame and on the place of the payload, and on no other operand (R162, R163). -/
theorem fullSample_congr {ops ops' : OperandRegs} (hw : ops'.frameW = ops.frameW) (hh : ops'.frameH = ops.frameH)
    (hsrc : ops'.srcBase = ops.srcBase) (p : Profile) (q : Table) (m : Memory) (y x : Nat) :
    fullSample p q ops' m y x = fullSample p q ops m y x := by
  simp only [fullSample, blockBytes, srcAddr, OperandRegs.width, OperandRegs.height, hw, hh, hsrc]

/-- Settles O39: both samples are the full image at one place, which lies in the frame because the region does. -/
theorem regionDecodeIsACropOfTheFullDecode : Obligations.RegionDecodeIsACropOfTheFullDecode := by
  intro p s t u r hm hw hh hsrc _ hfull ht hregion hu i j hi hj
  obtain ⟨-, hfullImage, -, -⟩ := leavesRegionImage_of_execWith hm rfl hfull ht
  obtain ⟨hv, hregionImage, -, -⟩ := leavesRegionImage_of_execWith (s := { s with regs := r }) hm rfl hregion hu
  obtain ⟨-, ⟨hx, hy⟩, ⟨hright, hbottom⟩, -, -⟩ : r.region.Valid r.width r.height := hv
  have hwidth : r.width = s.regs.width := congrArg BitVec.toInt hw
  have hheight : r.height = s.regs.height := congrArg BitVec.toInt hh
  rw [hwidth] at hright
  rw [hheight] at hbottom
  have hrow : ((r.region.y.toNat + i : Nat) : Int) < s.regs.height := by omega
  have hcol : ((r.region.x.toNat + j : Nat) : Int) < s.regs.width := by omega
  calc u.mem.read (r.dstBase.toNat + i * r.region.width.toNat + j)
      = fullSample p s.qtab r s.mem (r.region.y.toNat + i) (r.region.x.toNat + j) := hregionImage i j hi hj
    _ = fullSample p s.qtab s.regs s.mem (r.region.y.toNat + i) (r.region.x.toNat + j) := fullSample_congr hw hh hsrc ..
    _ = _ := by simpa [OperandRegs.fullRegion] using (hfullImage _ _ hrow hcol).symm

/-- What a decode command does depends on its operands through its job alone. -/
theorem decodeCommand_apply_congr {job job' : OperandRegs → Job} {s : State} (h : job s.regs = job' s.regs) (p : Profile) :
    (decodeCommand p job).apply s = (decodeCommand p job').apply s :=
  congrArg (fun j => (decodeCommand p fun _ => j).apply s) h

/-- Settles O40: on these operands the region of DECR is that of DECF. -/
theorem explicitFullRegionIsTheFullDecode : Obligations.ExplicitFullRegionIsTheFullDecode := by
  intro s hx hy hwidth hheight
  have hregion : s.regs.region = s.regs.fullRegion := by
    rw [OperandRegs.region, hx, hy, hwidth, hheight]
    rfl
  rw [exec_eq_apply, exec_eq_apply]
  exact congrArg Host.Outcome.next (decodeCommand_apply_congr (congrArg Job.pixels hregion) Config.sensor)

/-! ## The thread count and the decodes -/

/-- R188: neither the checks nor the effect of a decode command look at LANES. -/
theorem apply_withLanes {i : Instr} {s : State} {job : Job} (hjob : jobOf i s.regs = some job) (p : Profile)
    (l : BitVec Config.lanesW) :
    (commandOf p i).apply { s with lanes := l } = { (commandOf p i).apply s with lanes := l } := by
  cases he : (commandOf p i).error s.cfg s.regs with
  | some e =>
    rw [Command.apply_of_error he, Command.apply_of_error (s := { s with lanes := l }) he]
    rfl
  | none =>
    rw [Command.apply_of_none he, Command.apply_of_none (s := { s with lanes := l }) he, effect_of_jobOf hjob,
      effect_of_jobOf hjob]
    rfl

/-- Settles O41: the three commands have block work. -/
theorem threadCountDoesNotAffectDecodes : Obligations.ThreadCountDoesNotAffectDecodes := by
  intro i s t l hi h
  obtain ⟨job, hjob⟩ : ∃ job, jobOf i s.regs = some job := by
    obtain rfl | rfl | rfl := hi <;> exact ⟨_, rfl⟩
  rw [exec_eq_apply] at h ⊢
  cases h
  rw [apply_withLanes hjob]

/-! ## Every schedule of block steps -/

/-- R182, R205: bytes stored in the image are none of a covered block, so its block step writes the same after them as before. -/
theorem Job.cells_writeCells {p : Profile} {ops : OperandRegs} {j : Job} {b : Block} {cs : List Host.Cell}
    (haccess : j.accessOk p ops = true) (hb : b ∈ j.blocks)
    (hcs : ∀ c ∈ cs, ops.dstBase.toNat ≤ c.1 ∧ c.1 < ops.dstBase.toNat + j.outBytes) (q : Table) (m : Memory) :
    j.cells p q ops (m.writeCells cs) b = j.cells p q ops m b := by
  simp only [Job.accessOk, Bool.and_eq_true, List.all_eq_true, rangesDisjoint, Bool.or_eq_true, decide_eq_true_eq] at haccess
  obtain ⟨-, hblocks⟩ := haccess
  obtain ⟨-, hdisjoint⟩ := hblocks b hb
  refine Job.cells_congr fun a hlo hhi => Memory.read_writeCells_other fun c hc hca => ?_
  have := hcs c hc
  omega

/-- The machine while block work is under way: memory as written so far, and the command in flight with the work it has left. -/
def State.underWay (s : State) (m : Memory) (f : InFlight) : State := { s with mem := m, inflight := some f }

/-- R187: a legal lane on a pending block performs its block step. -/
theorem laneStep_underWay {s : State} {l : Nat} {b : Block} {pending : List Block} (hl : l < s.lanes.toNat) (hb : b ∈ pending)
    (p : Profile) (m : Memory) (w : Word) (ops : OperandRegs) (job : Job) :
    (s.underWay m ⟨w, ops, .blocks job pending⟩).laneStep p l b =
      .next (s.underWay (m.writeCells (job.cells p s.qtab ops m b)) ⟨w, ops, .blocks job (pending.erase b)⟩) :=
  if_pos ⟨hl, hb⟩

/-- R74, R187: block steps in any order on any legal lanes store what each block gives from the memory before them all, since no
step writes a byte that another reads. -/
theorem laneSteps_underWay {p : Profile} {s : State} {m : Memory} {w : Word} {ops : OperandRegs} {job : Job}
    {pending : List Block} {schedule : List (Nat × Block)} (haccess : job.accessOk p ops = true) (hsub : pending ⊆ job.blocks)
    (hperm : (schedule.map Prod.snd).Perm pending) (hlanes : ∀ e ∈ schedule, e.1 < s.lanes.toNat) :
    (s.underWay m ⟨w, ops, .blocks job pending⟩).laneSteps p schedule =
      .next (s.underWay (m.writeCells ((schedule.map Prod.snd).flatMap (job.cells p s.qtab ops m)))
        ⟨w, ops, .blocks job []⟩) := by
  induction schedule generalizing m pending with
  | nil =>
    obtain rfl := List.nil_perm.1 hperm
    rfl
  | cons e rest ih =>
    obtain ⟨l, b⟩ := e
    obtain ⟨hl, hrest⟩ := List.forall_mem_cons.1 hlanes
    obtain ⟨hb, hperm'⟩ := List.cons_perm_iff_perm_erase.1 hperm
    have hsub' : pending.erase b ⊆ job.blocks := fun _ h => hsub (List.mem_of_mem_erase h)
    have hreads : (rest.map Prod.snd).flatMap (job.cells p s.qtab ops (m.writeCells (job.cells p s.qtab ops m b))) =
        (rest.map Prod.snd).flatMap (job.cells p s.qtab ops m) :=
      List.flatMap_congr fun b' hb' =>
        Job.cells_writeCells haccess (hsub' (hperm'.subset hb')) (fun _ hc => Job.cells_range hc) _ _
    simp only [State.laneSteps, laneStep_underWay hl hb]
    rw [ih hsub' hperm' hrest, hreads, List.map_cons, List.flatMap_cons, Memory.writeCells_append]

/-- The blocks of a valid job leave the same memory in every order: no two of them store to one byte different values (R74). -/
theorem Job.writeCells_flatMap_of_perm {p : Profile} {q : Table} {ops : OperandRegs} {m : Memory} {j : Job} {bs : List Block}
    (hm : m.wf = true) (hv : j.Valid ops) (haccess : j.accessOk p ops = true) (hperm : bs.Perm j.blocks) :
    m.writeCells (bs.flatMap (j.cells p q ops m)) = m.writeCells (j.allCells p q ops m) := by
  have hmem : ∀ c, c ∈ bs.flatMap (j.cells p q ops m) ↔ c ∈ j.allCells p q ops m := fun c =>
    (hperm.flatMap_right _).mem_iff
  refine Memory.writeCells_congr hm (fun c hc => ?_) hmem fun c hc d hd =>
    Job.allCells_unique hv ((hmem c).1 hc) ((hmem d).1 hd)
  exact Nat.lt_of_lt_of_le (Job.allCells_range ((hmem c).1 hc)).2 (Job.image_end_le haccess)

/-- The work that the checks of a decode command leave is all its blocks (R187). -/
theorem workAfterChecks_of_jobOf {i : Instr} {ops : OperandRegs} {job : Job} (hjob : jobOf i ops = some job) (m : Memory) :
    workAfterChecks i ops m = some (.blocks job job.blocks) := by
  obtain ⟨rfl, rfl⟩ | ⟨rfl, rfl⟩ | ⟨rfl, rfl⟩ := jobOf_eq_some_iff.1 hjob <;> rfl

/-- Settles O42: the schedule stores, from the memory at acceptance, the cells of the atomic effect in another order. -/
theorem everyScheduleGivesTheAtomicResult : Obligations.EveryScheduleGivesTheAtomicResult := by
  intro p s w i job schedule _ hm hd hjob he hperm hlanes
  obtain ⟨-, hrange, haccess⟩ := checks_of_jobOf hjob he
  have hchecks : (s.accept w).advance p = .next ((s.accept w).underWay s.mem ⟨w, s.regs, .blocks job job.blocks⟩) := by
    rw [advance_accept, runChecks_of_work (s := s.accept w) ⟨w, s.regs, .checks⟩ hd he (workAfterChecks_of_jobOf hjob _)]
    rfl
  have hsteps := laneSteps_underWay (s := s.accept w) (m := s.mem) (w := w) haccess (List.Subset.refl _) hperm hlanes
  rw [State.accept_qtab, Job.writeCells_flatMap_of_perm hm (Job.rangeOk_iff.1 hrange) haccess hperm] at hsteps
  rw [execWith_eq, Command.apply_of_none he, effect_of_jobOf hjob]
  simp only [State.laneRun, hchecks, hsteps]
  rfl

end Sys2Proof.Machine
end

section
/-! SUPPORT. DC decode and sequence extraction (44_dc_seq.md R201 to R215): the DC request of a pixel region, the DC image and the one
table entry it depends on, the sequence field in numbers, and what of the configuration each command looks at. -/

namespace Sys2Proof.Machine

/-! ## The DC request of a region -/

/-- R202: the request for a valid region is valid, since the last covered block of the region lies in the grid. -/
theorem Region.dcRequest_valid {r : Region} {w h : Int} (hv : r.Valid w h) : r.dcRequest.Valid w h := by
  obtain ⟨-, ⟨hx, hy⟩, ⟨hright, hbottom⟩, hwidth, hheight⟩ := hv
  simp only [DcRegion.Valid, Region.dcRequest, nbx_eq, nby_eq, Config.blk]
  omega

/-- R164, R168: the half-open bounds of the request are the closed bounds of the region. -/
theorem Region.dcRequest_covers_iff {r : Region} {b : Block} : r.dcRequest.Covers b ↔ r.Covers b := by
  simp only [DcRegion.Covers, Region.Covers, Region.dcRequest, Config.blk]
  omega

/-- Settles O34: the listed blocks of both are the covered ones. -/
theorem dcRequestCoversTheRegion : Obligations.DcRequestCoversTheRegion := by
  intro r w h hvalid
  have hv := Region.valid_iff.1 hvalid
  have hdc := Region.dcRequest_valid hv
  refine ⟨DcRegion.valid_iff.2 hdc, fun b => ?_⟩
  rw [DcRegion.mem_blocks hdc, Region.mem_blocks hv, Region.dcRequest_covers_iff]

/-! ## DECDC -/

/-- R203, R204: what valid DC work with its completion leaves. -/
theorem leavesDcImage_of_accessOk {p : Profile} {r : DcRegion} {s : State} (hm : s.mem.wf = true)
    (hv : r.Valid s.regs.width s.regs.height) (haccess : (Job.dc r).accessOk p s.regs = true) :
    LeavesDcImage p r s (s.storeCells ((Job.dc r).allCells p s.qtab s.regs s.mem)).complete := by
  refine ⟨fun i j hi hj => ?_, fun a ha => ?_, rfl⟩
  · exact Job.read_writeCells_allCells (j := .dc r) hm hv haccess (Int.lt_toNat.2 hi) (Int.lt_toNat.2 hj)
  · refine Job.read_writeCells_allCells_other ?_
    rwa [Job.outBytes_eq]

/-- Settles O37: DECDC is DC work on its request, and passes its checks when that is valid and its bytes lie as they must. -/
theorem decdcWritesTheDcImage : Obligations.DecdcWritesTheDcImage := by
  refine ⟨spelledPlain_of_operand_eq_none (i := .decdc) rfl, fun p s hm hcfg hrequest haccess => ?_⟩
  have hv : (decdcJob s.regs).Valid s.regs := hrequest
  have hblocks : AccessOk p s.regs (fun b => b ∈ (decdcJob s.regs).blocks) (decdcJob s.regs).outBytes := by
    rw [Job.outBytes_eq]
    exact (AccessOk.congr fun _ => DcRegion.mem_blocks hrequest).2 haccess
  exact ⟨_, answers_of_none (decode_error_eq_none_iff.2 ⟨hcfg, hv, hblocks⟩),
    leavesDcImage_of_accessOk hm hv ((Job.accessOk_iff hv).2 hblocks)⟩

/-! ## What a command does not look at -/

/-- A change of the state that the checks do not see and that commutes with the effect commutes with the command. -/
theorem Command.apply_comm {c : Command} {change : State → State} {s : State} (hcfg : (change s).cfg = s.cfg)
    (hregs : (change s).regs = s.regs) (hraise : ∀ e, (change s).raise e = change (s.raise e))
    (heffect : (c.effect s.regs (change s)).complete = change (c.effect s.regs s).complete) :
    c.apply (change s) = change (c.apply s) := by
  unfold Command.apply
  rw [hcfg, hregs]
  cases c.error s.cfg s.regs with
  | some e => exact hraise e
  | none => exact heffect

/-- R140, R206: the DC samples of a request depend on entry 0 of the table alone. -/
theorem DcRegion.allCells_congr_table {q q' : Table} (h : q[0] = q'[0]) (p : Profile) (r : DcRegion) (ops : OperandRegs)
    (m : Memory) : (Job.dc r).allCells p q ops m = (Job.dc r).allCells p q' ops m := by
  have hsample : ∀ block, dcSample p block q = dcSample p block q' := fun block => congrArg (p.dcmap (dcx p block)) h
  exact List.flatMap_congr fun b _ => congrArg (dcCells ops r b) (hsample _)

/-- Settles O44: the checks do not look at the table, and the effect looks at its entry 0. -/
theorem decdcReadsOnlyEntryZero : Obligations.DecdcReadsOnlyEntryZero := by
  intro s t q hq h
  have heffect : (decdcJob s.regs).allCells Config.sensor q s.regs s.mem =
      (decdcJob s.regs).allCells Config.sensor s.qtab s.regs s.mem := DcRegion.allCells_congr_table hq ..
  rw [exec_eq_apply] at h ⊢
  cases h
  exact congrArg Host.Outcome.next (Command.apply_comm (change := fun u => { u with qtab := q }) rfl rfl (fun _ => rfl)
    (congrArg (fun cells => ({ s with qtab := q }.storeCells cells).complete) heffect))

/-- Settles O46: neither the checks nor the effect of SEQX look at the table or at LANES. -/
theorem seqxIgnoresTableAndThreadCount : Obligations.SeqxIgnoresTableAndThreadCount := by
  intro s t q l h
  rw [exec_eq_apply] at h ⊢
  cases h
  exact congrArg Host.Outcome.next
    (Command.apply_comm (change := fun u => { u with qtab := q, lanes := l }) rfl rfl (fun _ => rfl) rfl)

/-! ## The sequence field -/

/-- R15, R60: a little-endian read is the sum of its bytes, byte `k` with the weight `256 ^ k`. -/
theorem Memory.readLe_eq_sum (m : Memory) (a n : Nat) :
    m.readLe a n = ∑ k ∈ Finset.range n, (m.read (a + k)).toNat * 256 ^ k := by
  induction n generalizing a with
  | zero => rfl
  | succ n ih =>
    have htail : ∀ k, (m.read (a + (k + 1))).toNat * 256 ^ (k + 1) = 256 * ((m.read (a + 1 + k)).toNat * 256 ^ k) := by
      intro k
      rw [Nat.add_assoc, Nat.add_comm 1 k]
      ring
    calc m.readLe a (n + 1) = (m.read a).toNat + 256 * m.readLe (a + 1) n := rfl
      _ = (m.read a).toNat + ∑ k ∈ Finset.range n, (m.read (a + (k + 1))).toNat * 256 ^ (k + 1) := by
        rw [ih, Finset.mul_sum, Finset.sum_congr rfl fun k _ => htail k]
      _ = _ := by rw [Finset.sum_range_succ', pow_zero, mul_one, add_zero, add_comm]

/-- R60: a little-endian read of `n` bytes fits them. -/
theorem Memory.readLe_lt (m : Memory) (a n : Nat) : m.readLe a n < 256 ^ n := by
  have hlt := leValue_lt (m.readBytes a n)
  rwa [Memory.readBytes_length] at hlt

/-- R210, R214: the sequence field has at most 8 bytes, so 64 bits hold it whole. -/
theorem seqValue_toNat (p : Profile) (ops : OperandRegs) (m : Memory) :
    (seqValue p ops m).toNat = m.readLe (seqAddr p ops) p.seqBytes := by
  refine Nat.mod_eq_of_lt ?_
  calc m.readLe (seqAddr p ops) p.seqBytes < 256 ^ p.seqBytes := m.readLe_lt ..
    _ ≤ 256 ^ 8 := Nat.pow_le_pow_right (by decide) p.seqBytes_range.2
    _ = 2 ^ 64 := by decide

/-- R42: RESULT_HI:RESULT holds the 64-bit value that was put there. -/
theorem State.setResult_resultHi_append_result (s : State) (v : BitVec 64) :
    (s.setResult v).resultHi ++ (s.setResult v).result = v :=
  BitVec.extractLsb'_append_extractLsb'

/-! ## SEQX -/

/-- A command whose checks fail answers a completion with the error, under every profile. -/
theorem answers_of_error {p : Profile} {i : Instr} {s : State} {e : Err} (he : (commandOf p i).error s.cfg s.regs = some e) :
    ∃ t, Answers p i s t ∧ CompletedWith e s t := by
  have hwith : execWith p i s = .next (s.raise e) := by rw [execWith_eq, Command.apply_of_error he]
  refine ⟨_, ⟨hwith, ?_⟩, s.raise_completedWith e⟩
  rintro rfl
  rw [exec_eq_apply, Command.apply_of_error he]

/-- Settles O45, by the chain of the checks; the effect puts the sequence field into the result registers. -/
theorem seqxReadsTheSequenceField : Obligations.SeqxReadsTheSequenceField := by
  refine ⟨spelledPlain_of_operand_eq_none (i := .seqx) rfl, fun p s => ⟨fun hcfg => ?_, fun hcfg hw => ?_, fun hcfg hw => ?_⟩⟩
  · exact answers_of_error (by rw [seqx_error, if_pos hcfg])
  · exact answers_of_error (by rw [seqx_error, hcfg, if_neg (by decide), if_pos hw])
  · refine ⟨_, answers_of_none (by rw [seqx_error, hcfg, if_neg (by decide), if_neg (not_not_intro hw)]), ?_, rfl⟩
    have hresult := s.setResult_resultHi_append_result (seqValue p s.regs s.mem)
    exact (congrArg BitVec.toNat hresult).trans ((seqValue_toNat ..).trans (Memory.readLe_eq_sum ..))

end Sys2Proof.Machine
end

section
/-! SUPPORT. The errors of the commands (60_exceptions.md R222 to R228, R244): which check raises which error, that an error changes
STATUS only, and the failed checks of the decode commands. -/

namespace Sys2Proof.Machine

/-! ## Which check raises which error -/

/-- R227: each error a command reports comes from a check of its own that failed. -/
theorem Command.failed_check_of_error {c : Command} {cfg : Cfg} {ops : OperandRegs} {e : Err} (he : c.error cfg ops = some e) :
    (e = .stateError ∧ c.needsReady = true) ∨ (e = .configError ∧ c.configOk = false) ∨
      (e = .rangeError ∧ c.rangeOk ops = false) ∨ (e = .accessFault ∧ c.accessOk ops = false) := by
  unfold Command.error at he
  split_ifs at he with hready hconfig hrange haccess <;> cases he
  · exact .inl ⟨rfl, (Bool.and_eq_true_iff.1 hready).1⟩
  · exact .inr (.inl ⟨rfl, (Bool.not_eq_true' _).mp hconfig⟩)
  · exact .inr (.inr (.inl ⟨rfl, (Bool.not_eq_true' _).mp hrange⟩))
  · exact .inr (.inr (.inr ⟨rfl, (Bool.not_eq_true' _).mp haccess⟩))

/-- Settles O49: for each error, the commands whose table row lacks it have no check that raises it. -/
theorem commandsRaiseOnlyTheirErrors : Obligations.CommandsRaiseOnlyTheirErrors := by
  intro i s t h
  obtain ⟨e, he, rfl⟩ | ⟨-, rfl⟩ := exec_cases h
  · rw [State.raise_err]
    obtain ⟨rfl, hready⟩ | ⟨rfl, hconfig⟩ | ⟨rfl, hrange⟩ | ⟨rfl, haccess⟩ := Command.failed_check_of_error he
    · cases i with
      | init | initq => cases hready
      | qset | qget | lset | lget | decf | decr | decdc | seqx => simp
    · cases i with
      | init | qget | lget | decf | decr | decdc | seqx => cases hconfig
      | initq | qset | lset => simp
    · cases i with
      | init | initq | qset | qget | lset | lget | seqx => cases hrange
      | decf | decr | decdc => simp
    · cases i with
      | init | lset | lget => cases haccess
      | initq | qset | qget | decf | decr | decdc | seqx => simp
  · rw [State.complete_err]
    cases i <;> exact List.mem_cons_self

/-! ## Errors change STATUS only -/

/-- Settles O48: a failed command and an illegal word both raise an error on the state before. -/
theorem errorsChangeStatusOnly : Obligations.ErrorsChangeStatusOnly := by
  refine ⟨fun i s t h herr => ?_, fun s w e hidle hd => ?_⟩
  · obtain ⟨e, rfl⟩ := exec_failed h herr
    exact s.raise_completedWith e
  · exact ⟨_, perform_cmd_of_decode_error hidle.1 hd, s.raise_completedWith .illegalCommand⟩

/-! ## Commands before construction -/

/-- R113, R223: every command but INIT and INITQ requires READY. -/
theorem commandOf_needsReady {p : Profile} {i : Instr} (hinit : i ≠ .init) (hinitq : ∀ n, i ≠ .initq n) :
    (commandOf p i).needsReady = true := by
  cases i with
  | init => exact absurd rfl hinit
  | initq n => exact absurd rfl (hinitq n)
  | qset | qget | lset | lget | decf | decr | decdc | seqx => rfl

/-- R227: READY is the first check. -/
theorem Command.error_unconfigured {c : Command} (hready : c.needsReady = true) (ops : OperandRegs) :
    c.error .unconfigured ops = some .stateError :=
  if_pos (Bool.and_eq_true_iff.2 ⟨hready, rfl⟩)

/-- Settles O47: the command requires READY, which is checked first. -/
theorem commandsBeforeConstructionFail : Obligations.CommandsBeforeConstructionFail := by
  intro i s hcfg hinit hinitq
  exact exec_of_error (hcfg ▸ Command.error_unconfigured (commandOf_needsReady hinit hinitq) s.regs)

/-! ## The failed checks of a decode command -/

section
variable {i : Instr} {s : State} {job : Job} (hjob : jobOf i s.regs = some job) (hcfg : s.cfg = .ready)
include hjob hcfg

/-- R222: invalid geometry. -/
theorem exec_rangeError_of_not_valid (hv : ¬job.Valid s.regs) : ∃ t, exec i s = .next t ∧ CompletedWith .rangeError s t := by
  obtain ⟨rfl, rfl⟩ | ⟨rfl, rfl⟩ | ⟨rfl, rfl⟩ := jobOf_eq_some_iff.1 hjob <;>
    exact exec_of_error (hcfg ▸ decode_error_range hv)

/-- R224: valid geometry whose bytes do not lie as they must. -/
theorem exec_accessFault_of_not_accessOk (hv : job.Valid s.regs) {covered : Block → Prop}
    (hcovered : ∀ b, b ∈ job.blocks ↔ covered b) (haccess : ¬AccessOk Config.sensor s.regs covered (job.rows * job.cols)) :
    ∃ t, exec i s = .next t ∧ CompletedWith .accessFault s t := by
  rw [← AccessOk.congr hcovered, ← Job.outBytes_eq] at haccess
  obtain ⟨rfl, rfl⟩ | ⟨rfl, rfl⟩ | ⟨rfl, rfl⟩ := jobOf_eq_some_iff.1 hjob <;>
    exact exec_of_error (hcfg ▸ decode_error_access hv haccess)

end

/-- Settles O38, by the job of each decode command; that of DECF is valid when its frame is not empty. -/
theorem decodeErrorsChangeStatusOnly : Obligations.DecodeErrorsChangeStatusOnly := by
  intro s
  refine ⟨fun hcfg i hi => ?_, fun hcfg hempty => ?_, fun hcfg hv => ?_, fun hcfg hv => ?_, fun hcfg hw hh haccess => ?_,
    fun hcfg hv haccess => ?_, fun hcfg hv haccess => ?_⟩
  · refine commandsBeforeConstructionFail i s hcfg ?_ fun n => ?_ <;> rintro rfl <;> simp at hi
  · exact exec_rangeError_of_not_valid rfl hcfg fun ⟨_, _, _, hpos⟩ => hempty hpos
  · exact exec_rangeError_of_not_valid rfl hcfg hv
  · exact exec_rangeError_of_not_valid rfl hcfg hv
  · exact exec_accessFault_of_not_accessOk rfl hcfg (fullRegion_valid hw hh) (fun _ => mem_blocks_fullRegion hw hh) haccess
  · exact exec_accessFault_of_not_accessOk rfl hcfg hv (fun _ => Region.mem_blocks hv) haccess
  · exact exec_accessFault_of_not_accessOk rfl hcfg hv (fun _ => DcRegion.mem_blocks hv) haccess

end Sys2Proof.Machine
end

section
/-! SUPPORT. Reset and hazards (70_reset_and_hazards.md R250 to R272): what the host may not do while a command is in flight, what a
reset leaves of an abandoned command, and that the engine by itself brings every command to its completion. -/

namespace Sys2Proof.Machine

/-! ## An idle engine -/

/-- Without a script a step is the engine's own (R189, R242). -/
theorem step_of_noScript {s : State} (h : s.script = []) : step s = s.unscripted Config.sensor := by
  simp only [step, State.takeEvent, h]

/-- Settles O8: without a script a step is the engine's own, and an idle engine has none to take. -/
theorem idleEngineHoldsItsState : Obligations.IdleEngineHoldsItsState := by
  intro s hs hidle
  rw [step_of_noScript hs, State.unscripted, hidle]

/-! ## The host while a command is in flight -/

/-- R261: the register port refuses a write to an operand register while BUSY = 1. -/
theorem perform_write_operand_of_busy {s : State} (hb : s.busy = true) (r : OperandReg) (v : Word) :
    s.perform (.write 4 r.offset v) = .refused .busyRegisterWrite := by
  rw [perform_write_of_accessOk (portAccessOk_offset r)]
  simp [State.portWrite, hb]

/-- Settles O9: each of the three ways to write CMD or an operand register looks at BUSY first. -/
theorem busyRegisterWriteIsRefused : Obligations.BusyRegisterWriteIsRefused := by
  intro s hb
  have hissue (w : Word) : s.perform (.issue w) = .refused .busyRegisterWrite := if_pos hb
  have hcmd (w : Word) : s.perform (.write 4 0 w) = .refused .busyRegisterWrite := (perform_cmd s w).trans (if_pos hb)
  exact ⟨fun w => ⟨hcmd w, hissue w⟩, perform_write_operand_of_busy hb⟩

/-- A run of bytes touches a command's windows when one of its bytes belongs to either (R264). -/
theorem InFlight.touches_iff {f : InFlight} {a n : Nat} :
    f.touches a n = true ↔ ∃ k, k < n ∧ (f.ops.src.covers (a + k) = true ∨ f.ops.dst.covers (a + k) = true) := by
  simp [InFlight.touches]

/-- A host store inside the address space while a command is in flight (R264, R272). -/
theorem perform_store_of_inflight {s : State} {f : InFlight} (hf : s.inflight = some f) {a : Word} {data : List Byte}
    (hend : a.toNat + data.length ≤ 4294967296) :
    s.perform (.store a data) =
      if f.touches a.toNat data.length then .refused .busyWindowWrite else .next (s.storeCells (cellsAt a.toNat data)) := by
  simp only [State.perform, State.hostStore, hf]
  exact if_pos (decide_eq_true hend)

/-- Settles O10, by whether the store touches a window of the command in flight. -/
theorem busyWindowStoreIsRefused : Obligations.BusyWindowStoreIsRefused := by
  intro s f a data hf hend
  rw [perform_store_of_inflight hf hend]
  refine ⟨fun h => if_pos (InFlight.touches_iff.2 h), fun h => if_neg fun htouches => ?_⟩
  obtain ⟨k, hk, hcovers⟩ := InFlight.touches_iff.1 htouches
  obtain ⟨hsrc, hdst⟩ := h k hk
  simp [hsrc, hdst] at hcovers

/-! ## Reset while a command is in flight -/

/-- R67, R251: what an abandoned command was going to write lies in its destination window. -/
theorem dst_covers_of_mem_plannedRange {p : Profile} {f : InFlight} {s : State} {a : Nat}
    (ha : (s.plannedRange p f).1 ≤ a ∧ a < (s.plannedRange p f).1 + (s.plannedRange p f).2) : f.ops.dst.covers a = true := by
  unfold State.plannedRange at ha
  split at ha
  case h_1 => exact absurd ha.2 (Nat.not_lt_zero a)
  case h_2 =>
    split at ha
    case h_1 => exact absurd ha.2 (Nat.not_lt_zero a)
    case h_2 he => exact dst_covers_of_mem_writeRange he ha.1 ha.2

/-- A reset leaves every byte alone that the abandoned command was not going to write (R50, R251). -/
theorem State.read_memAfterReset {p : Profile} {s : State} {f : InFlight} (hf : s.inflight = some f) {a : Nat}
    (hout : f.ops.dst.covers a = false) : (s.memAfterReset p).read a = s.mem.read a := by
  simp only [State.memAfterReset, hf]
  refine Memory.read_writeCells_other fun c hc hca => ?_
  obtain ⟨k, hk, rfl⟩ := List.mem_map.1 hc
  subst hca
  have hcovers := dst_covers_of_mem_plannedRange ⟨Nat.le_add_right _ k, Nat.add_lt_add_left (List.mem_range.1 hk) _⟩
  exact Bool.false_ne_true (hout.symm.trans hcovers)

/-- Settles O18: the registers as after any reset; the bytes drawn anew are those the command was going to write. -/
theorem abandonedCommandTouchesOnlyItsDestination : Obligations.AbandonedCommandTouchesOnlyItsDestination := by
  intro s f hf
  exact ⟨s.resetEvent Config.sensor, rfl, rfl, rfl, s.status_resetEvent _, rfl, rfl, OperandRegs.get_zero,
    fun _ hout => State.read_memAfterReset hf hout⟩

/-! ## A command in flight completes -/

/-- The machine left to itself reaches a completion from `s` (R271). -/
def State.Completes (s : State) : Prop :=
  ∃ k t, Host.Core.run Sys2Proof.core k s = .next t ∧ t.busy = false ∧ t.done = true

theorem run_succ_of_step {s t : State} (h : step s = .next t) (k : Nat) :
    Host.Core.run Sys2Proof.core (k + 1) s = Host.Core.run Sys2Proof.core k t := by
  simp only [Host.Core.run, show Sys2Proof.core.step s = .next t from h]

theorem State.completes_of_done {s : State} (hb : s.busy = false) (hd : s.done = true) : s.Completes :=
  ⟨0, s, rfl, hb, hd⟩

theorem State.completes_of_step {s t : State} (h : step s = .next t) (ht : t.Completes) : s.Completes := by
  obtain ⟨k, u, hrun, hu⟩ := ht
  exact ⟨k + 1, u, (run_succ_of_step h k).trans hrun, hu⟩

/-- R182, R205: a command has block work only on a ready engine, so that there is a lane to do it. -/
theorem State.Inv.lanes_pos {p : Profile} {s : State} (h : s.Inv p) {f : InFlight} (hf : s.inflight = some f) {job : Job}
    {pending : List Block} (hw : f.work = .blocks job pending) : 0 < s.lanes.toNat := by
  obtain ⟨-, hwork⟩ := h.flight f hf
  rw [hw] at hwork
  obtain ⟨-, hready, -⟩ := hwork
  exact (h.lanes hready).1

/-- The checks are made once: they leave other work. -/
theorem workAfterChecks_ne_checks {i : Instr} {ops : OperandRegs} {m : Memory} {work : Work}
    (h : workAfterChecks i ops m = some work) : work ≠ .checks := by
  rintro rfl
  cases i <;> cases h

section
variable {s : State} {w : Word} {ops : OperandRegs}

/-- R187: lane 0 takes the first pending block of a command in flight. -/
theorem step_of_pending {job : Job} {b : Block} {rest : List Block} (hs : s.script = [])
    (hf : s.inflight = some ⟨w, ops, .blocks job (b :: rest)⟩) (hl : 0 < s.lanes.toNat) :
    step s = .next { s.storeCells (job.cells Config.sensor s.qtab ops s.mem b) with
      inflight := some ⟨w, ops, .blocks job rest⟩ } := by
  rw [step_of_noScript hs]
  simp only [State.unscripted, State.laneStep, hf, List.mem_cons_self, and_true, if_pos hl, List.erase_cons_head]

/-- R189: with no block pending the step of the engine is the sequencer's. -/
theorem step_of_checks (hs : s.script = []) (hf : s.inflight = some ⟨w, ops, .checks⟩) :
    step s = .next (s.runChecks Config.sensor ⟨w, ops, .checks⟩) := by
  rw [step_of_noScript hs]
  simp only [State.unscripted, State.advance, hf]

theorem step_of_commit {constructs : Bool} {t : Table} (hs : s.script = [])
    (hf : s.inflight = some ⟨w, ops, .commit constructs t⟩) : step s = .next (s.commit Config.sensor constructs t) := by
  rw [step_of_noScript hs]
  simp only [State.unscripted, State.advance, hf]

theorem step_of_noPending {job : Job} (hs : s.script = []) (hf : s.inflight = some ⟨w, ops, .blocks job []⟩) :
    step s = .next s.complete := by
  rw [step_of_noScript hs]
  simp only [State.unscripted, State.advance, hf]

/-- Block work completes: each step takes one pending block off (R187, R271). -/
theorem State.completes_of_blocks {job : Job} {pending : List Block} (hs : s.script = [])
    (hf : s.inflight = some ⟨w, ops, .blocks job pending⟩) (hl : 0 < s.lanes.toNat) : s.Completes := by
  induction pending generalizing s with
  | nil => exact completes_of_step (step_of_noPending hs hf) (completes_of_done rfl rfl)
  | cons b rest ih => exact completes_of_step (step_of_pending hs hf hl) (ih hs rfl hl)

/-- A command past its checks completes: a table is committed in one step, block work block by block (R118, R187). -/
theorem State.completes_of_checked {work : Work} (hwork : work ≠ .checks) (hs : s.script = [])
    (hf : s.inflight = some ⟨w, ops, work⟩) (hinv : s.Inv Config.sensor) : s.Completes := by
  cases work with
  | checks => exact absurd rfl hwork
  | commit constructs t => exact completes_of_step (step_of_commit hs hf) (completes_of_done rfl rfl)
  | blocks job pending => exact completes_of_blocks hs hf (hinv.lanes_pos hf rfl)

/-- The checks end a command or leave work that completes (R110, R271). -/
theorem State.completes_of_checks (hs : s.script = []) (hf : s.inflight = some ⟨w, ops, .checks⟩)
    (hinv : s.Inv Config.sensor) : s.Completes := by
  have hstep := step_of_checks hs hf
  have hinv' := everyStepKeepsTheInvariant _ _ hinv hstep
  refine completes_of_step hstep ?_
  obtain ⟨e, -, h⟩ | ⟨i, work, -, -, hwork, h⟩ | ⟨i, -, -, -, h⟩ := runChecks_cases Config.sensor ⟨w, ops, .checks⟩ s
  · exact h ▸ completes_of_done rfl rfl
  · rw [h] at hinv' ⊢
    exact completes_of_checked (workAfterChecks_ne_checks hwork) hs rfl hinv'
  · exact h ▸ completes_of_done rfl rfl

end

/-- Settles O43, by whether the command in flight still has its checks before it. -/
theorem commandsInFlightComplete : Obligations.CommandsInFlightComplete := by
  intro s hinv hs hb
  obtain ⟨⟨w, ops, work⟩, hf⟩ := Option.isSome_iff_exists.1 (hinv.busy.symm.trans hb)
  by_cases hwork : work = .checks
  · exact State.completes_of_checks hs (hwork ▸ hf) hinv
  · exact State.completes_of_checked hwork hs hf hinv

end Sys2Proof.Machine
end
